-- ==== Sys2Proof/Word.lean ====
section
/-! DEFINITION. The widths of BNDIV: the 64-bit word of every register and limb (R5, R20), the byte of a bus lane
(R55), and the association list the limb store is held in (R32). -/

namespace Sys2Proof

/-- A 64-bit unsigned value: a limb, a host register, an operand (R5, R20, R74). -/
abbrev Word := BitVec 64

/-- One byte lane of a host bus (R55). -/
abbrev Byte := BitVec 8

/-- A store of 64-bit cells by index.
The limb store `L` is one (R32); R52 makes one whole limb its unit of access, so a cell is a limb, not a byte.
An index that is not listed reads as zero; `Machine.Memory.wf` is the canonical form. -/
abbrev Memory := List (Nat × Word)

end Sys2Proof
end

