-- ==== Sys2Proof/Config.lean ====
section
/-! DEFINITION. What one implementation of BNDIV fixes (CAP_MAX, BASE) and the values the spec leaves unspecified.
Every `opaque` constant here has no body, so no proof can see its value and a claim holds whatever it is.
LATENCY (R9) is the free value `freeLatency`, drawn at each issue (log entry 3). -/

namespace Sys2Proof.Config

/-- The implementer's free choice behind `capMax`. -/
opaque capMaxSeed : Nat

/-- CAP_MAX (R7): a legal value satisfies 0 < CAP_MAX < 2^58.
Reducing the free seed gives every legal value and no other.
It is what `State.reset` puts in PARAM; the model reads CAP_MAX from PARAM everywhere (R29). -/
def capMax : Nat := capMaxSeed % (2 ^ 58 - 1) + 1

/-- The platform's free choice behind `base`. -/
opaque baseBlock : Nat

/-- BASE (R8): the host address of the register window, a multiple of 128. -/
def base : Nat := 128 * baseBlock

/-- Where a value the spec calls unspecified comes from: one name for each such value, so that no two of them are
ever the same draw by construction. -/
inductive FreeSite where
  | busyRead                                                    -- R41: a read of RES0, RES1, LEN or CAP while BUSY = 1
  | collisionRes0 | collisionRes1 | collisionLen | collisionCap -- R207
  | sdeR | sdeI                                                 -- R39: the short-division engine's working state
  | miuA | miuB | miuY | miuY1 | miuQ | miuShift                -- R40: the modular-inverse unit's working state
deriving DecidableEq, Repr

/-- The 64-bit value of the `k`-th draw at a site: a FREE VALUE (R41, R207, R39, R40).
DESIGN CHOICE (log entry 14): it depends on the site and the count alone, so two runs draw alike at one count.
Log entries 4, 5, 6 and 14. -/
opaque freeWord : FreeSite → Nat → Word

/-- What LATENCY may depend on, as it stands at an issue: the command word and both operands, and everything a host can
learn of the block's state (R9, R250).
DESIGN CHOICE (log entry 17): the limbs stand here as the value of the held BigNum, and neither limbs at LEN or above nor
the working registers stand here. -/
structure LatencyInput where
  cmd : Word
  a0 : Word
  a1 : Word
  res0 : Word
  res1 : Word
  done : Bool
  len : Word
  cap : Word
  param : Word
  value : Nat
deriving DecidableEq, Repr

/-- `LATENCY(cmd, state)` (R9) of the command issued when `k` draws have been made: how many turns the host has before the
completion step, as far as the schedule does not say whose turn it is.
It is finite, it may differ between commands, states and issues, and nothing else is known of it: a FREE VALUE.
Log entries 3 and 17. -/
opaque freeLatency : (k : Nat) → LatencyInput → Nat

/-- The limbs of the `k`-th draw of the whole limb store, as raw (index, limb) pairs: a FREE VALUE (R207, R230).
DESIGN CHOICE (log entry 14): it depends on the count alone, so two runs draw alike at one count.
Log entries 5, 7 and 14. -/
opaque freeLimbs : Nat → List (Nat × Word)

end Sys2Proof.Config
end

