-- ==== Sys2Proof/Syntax.lean ====
section
/-! DEFINITION. The command set of BNDIV: one constructor per row of spec/opcode_table.json (R75). -/

namespace Sys2Proof

/-- A BNDIV command.
The command word holds no immediate and no register number (R74), so no constructor has an argument: the operands are
the values of ARG0 and ARG1 latched at issue (R36). -/
inductive Instr where
  /-- NEW (R100) -/
  | new
  /-- RESIZE (R101) -/
  | resize
  /-- SHRINK (R102) -/
  | shrink
  /-- CLEAN (R103) -/
  | clean
  /-- RDLIMB (R104) -/
  | rdlimb
  /-- WRLIMB (R105) -/
  | wrlimb
  /-- SETBIT (R120) -/
  | setbit
  /-- UNSETBIT (R121) -/
  | unsetbit
  /-- FORCEBIT (R122) -/
  | forcebit
  /-- ISBITSET (R123) -/
  | isbitset
  /-- DIVMOD (R140) -/
  | divmod
  /-- MODINV.W32 (R163) -/
  | modinvW32
  /-- MODINV.W64 (R164) -/
  | modinvW64
  /-- INVODD.W32 (R161) -/
  | invoddW32
  /-- INVODD.W64 (R162) -/
  | invoddW64
deriving DecidableEq, Repr

end Sys2Proof
end

