-- ==== Sys2Proof/Machine/HostSyntax.lean ====
section
/-! DEFINITION. The host's side of the interface as plain data: the nine registers of the window (R20) and the
statements of the host program notation (R79), with the raw bus accesses of R13. -/

namespace Sys2Proof.Machine

/-- The nine registers of the window (R20). -/
inductive HostReg where
  | cmd | arg0 | arg1 | res0 | res1 | status | len | cap | param
deriving DecidableEq, Repr

/-- A host variable `hv` (R79), named by a number.
Variable 0 is the `t` of `wait` and of `checkok` (R79, R80). -/
abbrev HVar := Nat

/-- A value in a host statement: a 64-bit numeral or a host variable (R79, and program P3 of 95_test_vectors.md, which
writes a variable to ARG0). -/
inductive HostVal where
  | lit (v : Word)
  | var (h : HVar)
deriving DecidableEq, Repr

/-- A statement of a host program. -/
inductive HostStmt where
  /-- `wr <REG>, <v>` = `MemWrite(BASE + off(REG), 8, v)` (R79; any register of R20, so that R31 can be run) -/
  | wr (r : HostReg) (v : HostVal)
  /-- `cmd <MNEMONIC>` = a write of the mnemonic's CMD value of R75 to CMD (R79) -/
  | cmd (i : Instr)
  /-- `wait`: read STATUS into `t` until bit 0 is 0 (R79) -/
  | wait
  /-- `rd <hv>, <REG>` = `hv <- MemRead(BASE + off(REG), 8)` (R79) -/
  | rd (hv : HVar) (r : HostReg)
  /-- `name:`, a label named by a number (R79) -/
  | label (l : Nat)
  /-- `bnez hv, label` (R79) -/
  | bnez (hv : HVar) (l : Nat)
  /-- `beqz hv, label` (R79) -/
  | beqz (hv : HVar) (l : Nat)
  /-- `push hv`: append to the host's output list (R79; program P1 pushes a numeral too) -/
  | push (v : HostVal)
  /-- `halt` (R79) -/
  | halt
  /-- the second half of `checkok`: stop with a fault report if bit 2 of the variable is 1 (R80) -/
  | stopIfFault (hv : HVar)
  /-- `MemRead(addr, size)` at any address and width (R13, R54) -/
  | memRead (hv : HVar) (addr size : Nat)
  /-- `MemWrite(addr, size, v)` at any address and width (R13, R54) -/
  | memWrite (addr size : Nat) (v : HostVal)
  /-- an access by an agent other than the one host that drives this instance (R64) -/
  | otherHost
deriving DecidableEq, Repr

end Sys2Proof.Machine
end

