-- ==== Sys2Proof/Machine/State.lean ====
section
/-! DEFINITION. The state of BNDIV as plain data (10_state.md), with the host's side of the interface, and the ways a
step of the MODEL stops. A fault of BNDIV is no stop: it is the state STATUS.FAULT = 1 (R205, R206; log entry 1). -/

namespace Sys2Proof.Machine

/-- The fault codes of R200.
Code 1 is reserved and codes 8 to 15 do not exist (R200). -/
inductive FaultCode where
  | none                -- 0: no fault
  | invalidDigit        -- 1: reserved for the text parsers, raised by no command (R4)
  | capacityViolation   -- 2
  | rangeViolation      -- 3
  | invariantViolation  -- 4
  | operandViolation    -- 5
  | illegalCommand      -- 6
  | busyCollision       -- 7
deriving DecidableEq, Repr

/-- STATUS (R26), held as its fields; its reserved bits read 0 and have no storage. -/
structure Status where
  busy : Bool
  done : Bool
  fault : Bool
  err : FaultCode
deriving DecidableEq, Repr

/-- What PEND holds between issue and completion (R36, R38): the command word and both operands. -/
structure Pend where
  word : Word
  a0 : Word
  a1 : Word
deriving DecidableEq, Repr

/-- The working registers of the short-division engine (R39) and of the modular-inverse unit (R40).
Outside a command their values are unspecified and nothing reads them (log entry 6). -/
structure Work where
  sdeR : Word
  sdeI : Word
  miuA : Word
  miuB : Word
  miuY : Word
  miuY1 : Word
  miuQ : Word
  miuShift : Word
deriving DecidableEq, Repr

/-- Whether the host's program goes on (R79, R80). -/
inductive HostMode where
  | running
  | halted
  | faultReport
deriving DecidableEq, Repr

/-- The host's side: its program, its position in it, its variables (canonical as a `Memory`; an unlisted variable is 0),
its output list in the order pushed, and whether it goes on (R79; log entry 9). -/
structure HostCtx where
  prog : List HostStmt
  pos : Nat
  vars : Memory
  out : List Word
  mode : HostMode
deriving DecidableEq, Repr

/-- Whose step is next: the host's access, the block's own step, or the platform's reset (R36, R37, R230). -/
inductive Turn where
  | host
  | block
  | reset
deriving DecidableEq, Repr

/-- BNDIV and its host. -/
structure State where
  /-- CMD (R21) -/
  cmd : Word
  /-- ARG0 (R22) -/
  arg0 : Word
  /-- ARG1 (R23) -/
  arg1 : Word
  /-- RES0 (R24) -/
  res0 : Word
  /-- RES1 (R25) -/
  res1 : Word
  /-- STATUS (R26) -/
  status : Status
  /-- LEN (R27) -/
  len : Word
  /-- CAP (R28) -/
  cap : Word
  /-- PARAM (R29): CAP_MAX, a constant -/
  param : Word
  /-- the limb store L (R32) -/
  limbs : Memory
  /-- PEND (R38) -/
  pend : Option Pend
  /-- the engines' working registers (R39, R40) -/
  work : Work
  /-- the model's own: how many free draws have been made (log entry 14) -/
  fresh : Nat
  /-- the host's side (R79) -/
  host : HostCtx
  /-- the model's own: whose turns come next; when it is empty the host moves, until `latency` of its turns have passed
  with a command in flight (R9, R37; log entry 3) -/
  schedule : List Turn
  /-- the model's own: how much of the LATENCY of the command in flight is left, in turns of the host that the schedule
  does not list (R9; log entry 3) -/
  latency : Nat
deriving DecidableEq, Repr

/-- Why a step of the model stops with a fault. -/
inductive Fault where
  /-- Raised by a command's meaning when PEND is `none`, and by the completion step when BUSY = 1 and PEND is `none`.
  R38 makes that state impossible, and no run reaches it (log entry 11). Safe. -/
  | noCommandInFlight
deriving DecidableEq, Repr

/-- Why a step of the model is refused. -/
inductive Refusal where
  /-- Raised by an arm of `exec` whose instruction has no meaning yet; no arm is such an arm. Safe. -/
  | notModelled (mnemonic : String)
  /-- Raised by a host access inside the window that is not 8 bytes, not aligned or not mapped: "a model refuses it: the
  host has no step for that access" (R30, R54). Safe. -/
  | undefinedAccess
  /-- Raised by a host access to an address outside BASE to BASE + 0x7F, the range of R53.
  No rule says what such an access does: that it is refused is the model's choice (log entry 12). Safe. -/
  | outsideWindow
  /-- Raised by an access of a second host: "that is outside this spec, and a model refuses it" (R64). Safe. -/
  | secondHost
  /-- Raised by a host branch to a label its program does not declare, to which the notation of R79 gives no meaning.
  Safe. -/
  | undefinedLabel
deriving DecidableEq, Repr

/-- The state right after reset (R42).
PARAM holds CAP_MAX; the limbs and the working registers are unspecified by the spec, and log entries 6 and 7 name the
values here; there is no host program (log entry 10). -/
def State.reset : State where
  cmd := 0
  arg0 := 0
  arg1 := 0
  res0 := 0
  res1 := 0
  status := ⟨false, false, false, .none⟩
  len := 0
  cap := 0
  param := BitVec.ofNat 64 Config.capMax
  limbs := []
  pend := none
  work := ⟨0, 0, 0, 0, 0, 0, 0, 0⟩
  fresh := 0
  host := ⟨[], 0, [], [], .running⟩
  schedule := []
  latency := 0

end Sys2Proof.Machine
end

