-- ==== Sys2Proof/Machine/Flags.lean ====
section
/-! DEFINITION. STATUS: its word and everything that writes its fields (R26, R36, R37, R205). BNDIV has no condition
flags (R43). -/

namespace Sys2Proof.Machine

/-- The number of a fault code (R200). -/
def FaultCode.code : FaultCode → BitVec 4
  | .none => 0
  | .invalidDigit => 1
  | .capacityViolation => 2
  | .rangeViolation => 3
  | .invariantViolation => 4
  | .operandViolation => 5
  | .illegalCommand => 6
  | .busyCollision => 7

/-- STATUS as the host reads it: bits 63:12 zero, ERRCODE in 11:8, bits 7:3 zero, FAULT, DONE, BUSY (R26). -/
def Status.word (st : Status) : Word :=
  (0 : BitVec 52) ++ st.err.code ++ (0 : BitVec 5) ++ BitVec.ofBool st.fault ++ BitVec.ofBool st.done ++
    BitVec.ofBool st.busy

/-- Issue: `DONE <- 0`, `BUSY <- 1` (R36). -/
def Status.issued (st : Status) : Status := { st with busy := true, done := false }

/-- Completion without fault: `BUSY <- 0`, `DONE <- 1` (R37). -/
def Status.completed (st : Status) : Status := { st with busy := false, done := true }

/-- Fault entry: FAULT, ERRCODE, and BUSY and DONE cleared (R205, R207). -/
def Status.faulted (code : FaultCode) : Status := ⟨false, false, true, code⟩

/-- STATUS after reset (R42). -/
def Status.cleared : Status := ⟨false, false, false, .none⟩

end Sys2Proof.Machine
end

