-- ==== Sys2Proof/Machine/Ops.lean ====
section
/-! DEFINITION. The shared operations: reading, writing and zero-filling the limb store (R32), the free draws (R207,
R39, R40), completion (R37), fault entry (R205), BUSY_COLLISION (R207) and reset (R230), each written once. -/

namespace Sys2Proof.Machine

/-! ### The limb store -/

/-- `L[i]` (R13); an unlisted limb is 0. -/
def Memory.read : Memory → Nat → Word
  | [], _ => 0
  | c :: m, i => if c.1 = i then c.2 else Memory.read m i

/-- Put a cell in index order. -/
def Memory.insert (c : Nat × Word) : Memory → Memory
  | [] => [c]
  | d :: m => if c.1 < d.1 then c :: d :: m else d :: Memory.insert c m

/-- Remove the cells with an index in [lo, hi), which then read as 0: `for i in [lo, hi): L[i] <- 0` (R100, R101). -/
def Memory.zeroFill (m : Memory) (lo hi : Nat) : Memory :=
  m.filter fun c => !(decide (lo ≤ c.1) && decide (c.1 < hi))

/-- `L[i] <- v` (R13); writing 0 removes the cell. -/
def Memory.write (m : Memory) (i : Nat) (v : Word) : Memory :=
  if v = 0 then Memory.zeroFill m i (i + 1) else Memory.insert (i, v) (Memory.zeroFill m i (i + 1))

/-- The canonical form: indices strictly rising and no cell that holds 0, so that equal stores are equal lists. -/
abbrev Memory.wf (m : Memory) : Prop :=
  m.Pairwise (fun c d => c.1 < d.1) ∧ ∀ c ∈ m, c.2 ≠ 0

/-- The limbs of CAP_MAX physical limbs given by raw pairs, in canonical form; a pair outside the store is dropped. -/
def Memory.ofRaw (capMax : Nat) (raw : List (Nat × Word)) : Memory :=
  raw.foldr (fun c m => if c.1 < capMax then Memory.write m c.1 c.2 else m) []

/-! ### The value of the held BigNum -/

/-- `Num(n)`: the value of the first `n` limbs (R14). -/
def Memory.num (m : Memory) : Nat → Nat
  | 0 => 0
  | n + 1 => Memory.num m n + 2 ^ (64 * n) * (Memory.read m n).toNat

/-- The value of the held BigNum, `Num(LEN)` (R14). -/
def State.value (s : State) : Nat := Memory.num s.limbs s.len.toNat

/-! ### Free draws -/

/-- The `k`-th unspecified content of the whole limb store (R207, R230): any content at all of its CAP_MAX limbs. -/
def drawLimbs (capMax k : Nat) : Memory := Memory.ofRaw capMax (Config.freeLimbs k)

/-- The `k`-th unspecified content of the working registers (R39, R40). -/
def drawWork (k : Nat) : Work where
  sdeR := Config.freeWord .sdeR k
  sdeI := Config.freeWord .sdeI k
  miuA := Config.freeWord .miuA k
  miuB := Config.freeWord .miuB k
  miuY := Config.freeWord .miuY k
  miuY1 := Config.freeWord .miuY1 k
  miuQ := Config.freeWord .miuQ k
  miuShift := Config.freeWord .miuShift k

/-! ### Completion, fault entry, collision, reset -/

/-- CAP_MAX, which PARAM carries (R29). -/
def State.capMax (s : State) : Nat := s.param.toNat

/-- The end of a command without fault: BUSY cleared, DONE set, PEND emptied (R37), working registers unspecified (R39,
R40). -/
def State.completed (s : State) : State :=
  { s with
    status := s.status.completed
    pend := none
    work := drawWork s.fresh
    fresh := s.fresh + 1 }

/-- Fault entry at the completion step (R205).
CMD keeps the faulting word and ARG0 and ARG1 the operands (R201); what else the command leaves is in `s` already. -/
def State.faulted (code : FaultCode) (s : State) : State :=
  { s with
    status := Status.faulted code
    pend := none
    work := drawWork s.fresh
    fresh := s.fresh + 1 }

/-- A host write to CMD, ARG0 or ARG1 while BUSY = 1 (R207): the written value is discarded, the command in flight
abandoned, and L, LEN, CAP, RES0 and RES1 unspecified (log entry 5). -/
def State.collided (s : State) : State :=
  { s with
    status := Status.faulted .busyCollision
    pend := none
    limbs := drawLimbs s.capMax s.fresh
    len := Config.freeWord .collisionLen s.fresh
    cap := Config.freeWord .collisionCap s.fresh
    res0 := Config.freeWord .collisionRes0 s.fresh
    res1 := Config.freeWord .collisionRes1 s.fresh
    work := drawWork s.fresh
    fresh := s.fresh + 1 }

/-- Assertion of the reset input (R230): every piece of state at its value of R42, the limbs and the working registers
unspecified, PARAM constant.
The host and the schedule are not the block's and stay (log entry 15). -/
def State.resetBlock (s : State) : State :=
  { s with
    cmd := 0
    arg0 := 0
    arg1 := 0
    res0 := 0
    res1 := 0
    status := Status.cleared
    len := 0
    cap := 0
    pend := none
    limbs := drawLimbs s.capMax s.fresh
    work := drawWork s.fresh
    fresh := s.fresh + 1 }

/-- What the LATENCY of the word `v`, issued in this state, may depend on (R9; log entry 17). -/
def State.latencyInput (v : Word) (s : State) : Config.LatencyInput where
  cmd := v
  a0 := s.arg0
  a1 := s.arg1
  res0 := s.res0
  res1 := s.res1
  done := s.status.done
  len := s.len
  cap := s.cap
  param := s.param
  value := s.value

/-- Issue of the word `v` by an idle block (R36): CMD takes it, BUSY is set, the command and both operands are latched,
and the command's LATENCY is drawn (R9).
The draw needs no new count: the command's end makes one before the next issue (log entry 14). -/
def State.issued (v : Word) (s : State) : State :=
  { s with
    cmd := v
    status := s.status.issued
    pend := some ⟨v, s.arg0, s.arg1⟩
    latency := Config.freeLatency s.fresh (s.latencyInput v) }

/-- A command ends without fault (R37). -/
def complete (s : State) : Host.Outcome State Fault Refusal := .next s.completed

/-- `raise Fault(code)` (R13, R205): TAKING AN EXCEPTION, a next state in the fault state.
There is no return from it but reset (R206). -/
def raiseFault (code : FaultCode) (s : State) : Host.Outcome State Fault Refusal := .next (s.faulted code)

end Sys2Proof.Machine
end

