-- ==== Sys2Proof/Machine/Operands.lean ====
section
/-! DEFINITION. The operands of a command: latched values (R36, R74), bit positions (R51), the 32-bit operand (R161,
R163), and the normal form of the held BigNum (R15). -/

namespace Sys2Proof.Machine

/-- Run a command's rule on the operands `a0` and `a1` latched in PEND (R37, R74).
With no command in flight there is nothing to run (R38; log entry 11). -/
def withOperands (s : State) (rule : Word → Word → Host.Outcome State Fault Refusal) :
    Host.Outcome State Fault Refusal :=
  match s.pend with
  | some p => rule p.a0 p.a1
  | none => .fault .noCommandInFlight

/-- `limbIndex(pos) = pos >> 6` (R51). -/
def limbIndex (pos : Word) : Nat := (pos >>> 6).toNat

/-- `limbOffset(pos) = pos & 63` (R51). -/
def limbOffset (pos : Word) : Nat := (pos &&& 63#64).toNat

/-- `mask(pos) = 1 << limbOffset(pos)`, 64 bits (R51). -/
def bitMask (pos : Word) : Word := 1#64 <<< limbOffset pos

/-- `LEN <- max(LEN, k + 1)` (R105, R120, R122). -/
def lenCover (len : Word) (k : Nat) : Word := BitVec.ofNat 64 (max len.toNat (k + 1))

/-- `a0[63:32] != 0` (R161, R163). -/
def upperHalfSet (a0 : Word) : Bool := a0 >>> 32 != 0

/-- `a0[31:0]` (R161, R163). -/
def lowerHalf (a0 : Word) : BitVec 32 := a0.setWidth 32

/-- `n > 0 and L[n-1] = 0`: the top limb of the first `n` is zero (R103, R140). -/
def topLimbZero (m : Memory) (n : Nat) : Bool := decide (0 < n) && Memory.read m (n - 1) == 0

/-- Normalised: `LEN = 0` or `L[LEN-1] != 0` (R15). -/
def State.normalised (s : State) : Bool := !topLimbZero s.limbs s.len.toNat

end Sys2Proof.Machine
end

