-- ==== Sys2Proof/Machine/BitAccess.lean ====
section
/-! DEFINITION. The bit-access commands: SETBIT, UNSETBIT, FORCEBIT, ISBITSET (R120 to R123). -/

namespace Sys2Proof.Machine

/-- SETBIT (R120). -/
def execSetbit (s : State) : Host.Outcome State Fault Refusal :=
  withOperands s fun pos _ =>
    if s.cap.toNat * 64 ≤ pos.toNat then raiseFault .capacityViolation s
    else complete { s with
      len := lenCover s.len (limbIndex pos)
      limbs := Memory.write s.limbs (limbIndex pos) (Memory.read s.limbs (limbIndex pos) ||| bitMask pos) }

/-- UNSETBIT (R121). -/
def execUnsetbit (s : State) : Host.Outcome State Fault Refusal :=
  withOperands s fun pos _ =>
    if s.len.toNat * 64 ≤ pos.toNat then raiseFault .rangeViolation s
    else complete { s with
      limbs := Memory.write s.limbs (limbIndex pos) (Memory.read s.limbs (limbIndex pos) &&& ~~~ bitMask pos) }

/-- FORCEBIT (R122); the value is checked before the position (R203). -/
def execForcebit (s : State) : Host.Outcome State Fault Refusal :=
  withOperands s fun pos value =>
    if 1 < value.toNat then raiseFault .operandViolation s
    else if s.cap.toNat * 64 ≤ pos.toNat then raiseFault .capacityViolation s
    else complete { s with
      len := lenCover s.len (limbIndex pos)
      limbs := Memory.write s.limbs (limbIndex pos)
        ((Memory.read s.limbs (limbIndex pos) &&& ~~~ bitMask pos) ||| value * bitMask pos) }

/-- ISBITSET (R123). -/
def execIsbitset (s : State) : Host.Outcome State Fault Refusal :=
  withOperands s fun pos _ =>
    if s.len.toNat * 64 ≤ pos.toNat then raiseFault .rangeViolation s
    else complete { s with
      res0 := BitVec.setWidth 64 (BitVec.ofBool ((Memory.read s.limbs (limbIndex pos)).getLsbD (limbOffset pos))) }

end Sys2Proof.Machine
end

