-- ==== Sys2Proof/Machine/LimbStorage.lean ====
section
/-! DEFINITION. The limb storage commands: NEW, RESIZE, SHRINK, CLEAN, RDLIMB, WRLIMB (R100 to R105). -/

namespace Sys2Proof.Machine

/-- NEW (R100). -/
def execNew (s : State) : Host.Outcome State Fault Refusal :=
  withOperands s fun a0 _ =>
    if s.capMax < a0.toNat then raiseFault .capacityViolation s
    else complete { s with limbs := Memory.zeroFill s.limbs 0 a0.toNat, cap := a0, len := 0 }

/-- RESIZE (R101). -/
def execResize (s : State) : Host.Outcome State Fault Refusal :=
  withOperands s fun a0 _ =>
    if s.capMax < a0.toNat then raiseFault .capacityViolation s
    else if a0.toNat < s.len.toNat then raiseFault .capacityViolation s
    else complete { s with limbs := Memory.zeroFill s.limbs s.cap.toNat a0.toNat, cap := a0 }

/-- SHRINK (R102). -/
def execShrink (s : State) : Host.Outcome State Fault Refusal :=
  withOperands s fun _ _ => complete { s with cap := s.len }

/-- The scan of CLEAN, from limb `k - 1` down (R103). -/
def cleanScan (m : Memory) : Nat → Nat
  | 0 => 0
  | k + 1 => if Memory.read m k = 0 then cleanScan m k else k + 1

/-- CLEAN (R103). -/
def execClean (s : State) : Host.Outcome State Fault Refusal :=
  withOperands s fun _ _ => complete { s with len := BitVec.ofNat 64 (cleanScan s.limbs s.len.toNat) }

/-- RDLIMB (R104). -/
def execRdlimb (s : State) : Host.Outcome State Fault Refusal :=
  withOperands s fun a0 _ =>
    if s.cap.toNat ≤ a0.toNat then raiseFault .capacityViolation s
    else complete { s with res0 := Memory.read s.limbs a0.toNat }

/-- WRLIMB (R105). -/
def execWrlimb (s : State) : Host.Outcome State Fault Refusal :=
  withOperands s fun a0 a1 =>
    if s.cap.toNat ≤ a0.toNat then raiseFault .capacityViolation s
    else complete { s with limbs := Memory.write s.limbs a0.toNat a1, len := lenCover s.len a0.toNat }

end Sys2Proof.Machine
end

