-- ==== Sys2Proof/Machine/ModularInverse.lean ====
section
/-! DEFINITION. The modular-inverse unit: the recurrence of R160 and INVODD, MODINV at both widths (R161 to R164). -/

namespace Sys2Proof.Machine

/-- The Euclidean loop of R160 on `(A, B)` and `(Y, Y1)`, W bits wide, with at most `fuel` iterations: the last `A` and
`Y`.
R165 (b) bounds the iterations by the input, which `invOdd` gives as fuel. -/
def euclidLoop {w : Nat} : Nat → BitVec w → BitVec w → BitVec w → BitVec w → BitVec w × BitVec w
  | 0, a, _, y, _ => (a, y)
  | fuel + 1, a, b, y, y1 => if b = 0 then (a, y) else euclidLoop fuel b (a % b) y1 (y - a / b * y1)

/-- `InvOdd_W(b)` (R160): the inverse, or `none` where the rule raises INVARIANT_VIOLATION.
The first quotient is `(2^W // b) mod 2^W`. -/
def invOdd {w : Nat} (b : BitVec w) : Option (BitVec w) :=
  let q := BitVec.ofNat w (2 ^ w / b.toNat)
  let e := euclidLoop b.toNat b (0 - q * b) 1 (0 - q)
  if e.1 = 1 then some e.2 else none

/-- `ctz` (R12) on the low `fuel` bits of a number. -/
def ctzNat : Nat → Nat → Nat
  | 0, _ => 0
  | fuel + 1, v => if v % 2 = 1 then 0 else ctzNat fuel (v / 2) + 1

/-- `ctz_W(v)`: the number of trailing zero bits of a nonzero value (R12). -/
def ctz {w : Nat} (v : BitVec w) : Nat := ctzNat w v.toNat

/-- Run `InvOdd_W` on the odd word `b` and write `RES0 <- zext_64(InvOdd_W(b))` and `RES1 <- shift` (R161 to R164). -/
def finishInverse {w : Nat} (b : BitVec w) (shift : Nat) (s : State) : Host.Outcome State Fault Refusal :=
  match invOdd b with
  | some y => complete { s with res0 := y.setWidth 64, res1 := BitVec.ofNat 64 shift }
  | none => raiseFault .invariantViolation s

/-- INVODD at one width (R161, R162): `b` must be odd. -/
def inverseOfOdd {w : Nat} (b : BitVec w) (s : State) : Host.Outcome State Fault Refusal :=
  if b.toNat % 2 = 0 then raiseFault .operandViolation s else finishInverse b 0 s

/-- MODINV at one width (R163, R164): `b` must not be 0; its odd part is inverted. -/
def inverseOfOddPart {w : Nat} (b : BitVec w) (s : State) : Host.Outcome State Fault Refusal :=
  if b = 0 then raiseFault .operandViolation s else finishInverse (b >>> ctz b) (ctz b) s

/-- INVODD.W32 (R161). -/
def execInvoddW32 (s : State) : Host.Outcome State Fault Refusal :=
  withOperands s fun a0 _ =>
    if upperHalfSet a0 then raiseFault .operandViolation s else inverseOfOdd (lowerHalf a0) s

/-- INVODD.W64 (R162). -/
def execInvoddW64 (s : State) : Host.Outcome State Fault Refusal :=
  withOperands s fun a0 _ => inverseOfOdd a0 s

/-- MODINV.W32 (R163). -/
def execModinvW32 (s : State) : Host.Outcome State Fault Refusal :=
  withOperands s fun a0 _ =>
    if upperHalfSet a0 then raiseFault .operandViolation s else inverseOfOddPart (lowerHalf a0) s

/-- MODINV.W64 (R164). -/
def execModinvW64 (s : State) : Host.Outcome State Fault Refusal :=
  withOperands s fun a0 _ => inverseOfOddPart a0 s

end Sys2Proof.Machine
end

