-- ==== Sys2Proof/Machine/ShortDivision.lean ====
section
/-! DEFINITION. The short-division engine: DIVMOD (R140). -/

namespace Sys2Proof.Machine

/-- `t <- r * 2^64 + L[i]`, the 128-bit intermediate of R140. -/
def partialDividend (r : Nat) (limb : Word) : Nat := 2 ^ 64 * r + limb.toNat

/-- The loop of R140 over limbs `i - 1` down to 0, with running remainder `r`: the last remainder and the limbs with
their quotient. -/
def divLoop (d : Nat) : Nat → Nat → Memory → Nat × Memory
  | 0, r, m => (r, m)
  | i + 1, r, m =>
    divLoop d i (partialDividend r (Memory.read m i) % d)
      (Memory.write m i (BitVec.ofNat 64 (partialDividend r (Memory.read m i) / d)))

/-- The single-step length adjustment of R140. -/
def dropTopLimb (m : Memory) (n : Nat) : Nat := if topLimbZero m n then n - 1 else n

/-- The writes of DIVMOD by a divisor of at least 2: quotient limbs, remainder, adjusted LEN (R140). -/
def divided (d : Nat) (s : State) : State :=
  let q := divLoop d s.len.toNat 0 s.limbs
  { s with
    limbs := q.2
    res0 := BitVec.ofNat 64 q.1
    len := BitVec.ofNat 64 (dropTopLimb q.2 s.len.toNat) }

/-- DIVMOD (R140); INVARIANT_VIOLATION is raised after the writes (R205). -/
def execDivmod (s : State) : Host.Outcome State Fault Refusal :=
  withOperands s fun d _ =>
    if d = 0 then raiseFault .operandViolation s
    else if d = 1 then complete { s with res0 := 0 }
    else if topLimbZero (divided d.toNat s).limbs (divided d.toNat s).len.toNat then
      raiseFault .invariantViolation (divided d.toNat s)
    else complete (divided d.toNat s)

end Sys2Proof.Machine
end

