-- ==== Sys2Proof/Machine/Dispatch.lean ====
section
/-! DEFINITION. `exec`: the completion step of one decoded command (R37, R76), one arm per constructor of `Instr`. -/

namespace Sys2Proof.Machine

def exec (i : Instr) (s : State) : Host.Outcome State Fault Refusal :=
  match i with
  | .new => Sys2Proof.Machine.execNew s
  | .resize => Sys2Proof.Machine.execResize s
  | .shrink => Sys2Proof.Machine.execShrink s
  | .clean => Sys2Proof.Machine.execClean s
  | .rdlimb => Sys2Proof.Machine.execRdlimb s
  | .wrlimb => Sys2Proof.Machine.execWrlimb s
  | .setbit => Sys2Proof.Machine.execSetbit s
  | .unsetbit => Sys2Proof.Machine.execUnsetbit s
  | .forcebit => Sys2Proof.Machine.execForcebit s
  | .isbitset => Sys2Proof.Machine.execIsbitset s
  | .divmod => Sys2Proof.Machine.execDivmod s
  | .modinvW32 => Sys2Proof.Machine.execModinvW32 s
  | .modinvW64 => Sys2Proof.Machine.execModinvW64 s
  | .invoddW32 => Sys2Proof.Machine.execInvoddW32 s
  | .invoddW64 => Sys2Proof.Machine.execInvoddW64 s

end Sys2Proof.Machine
end

