-- ==== Sys2Proof/WellFormed.lean ====
section
/-! DEFINITION. The static checks: of a command word (R70 to R73, R77), of a host access (R30, R54), of a host program
(R79) and of the parameters (R7, R8).
An `Instr` has no field (R74), so every `Instr` is well formed; what can be ill formed is the word that names one. -/

namespace Sys2Proof

/-- The OPC values the spec assigns (R71). -/
def opcAssigned (opc : Nat) : Bool :=
  (0x01 ≤ opc && opc ≤ 0x06) || (0x10 ≤ opc && opc ≤ 0x13) || opc == 0x20 || opc == 0x30 || opc == 0x31

/-- A legal command word in the terms of R70 to R73: OPC assigned, W only with OPC 0x30 or 0x31, RSV and RSVH zero. -/
def commandWordWf (c : Word) : Bool :=
  let n := c.toNat
  n / 2 ^ 9 == 0 && opcAssigned (n % 2 ^ 8) && (n / 2 ^ 8 % 2 == 0 || n % 2 ^ 8 == 0x30 || n % 2 ^ 8 == 0x31)

/-- A defined host access: 8 bytes, aligned, at a mapped offset from BASE (R30, R54). -/
def accessWf (off size : Nat) : Bool := size == 8 && off % 8 == 0 && off ≤ 0x40

/-- A legal CAP_MAX (R7). -/
def capMaxLegal (n : Nat) : Bool := 0 < n && n < 2 ^ 58

/-- A legal BASE (R8). -/
def baseLegal (b : Nat) : Bool := b % 128 == 0

namespace Machine

/-- The labels a host program declares. -/
def progLabels (p : List HostStmt) : List Nat :=
  p.filterMap fun st => match st with
    | .label l => some l
    | _ => none

/-- The labels a host program branches to. -/
def progTargets (p : List HostStmt) : List Nat :=
  p.filterMap fun st => match st with
    | .bnez _ l | .beqz _ l => some l
    | _ => none

/-- A host program whose labels are declared once and whose branches go to declared labels (R79). -/
def progWf (p : List HostStmt) : Bool :=
  decide (progLabels p).Nodup && (progTargets p).all fun l => (progLabels p).contains l

end Machine
end Sys2Proof
end

