-- ==== Sys2Proof/Decode.lean ====
section
/-! DEFINITION. Decoding a command word (R70 to R78), total on every word and every list of bytes, and encoding.
The decoder reads the FIELDS of R70 against the OPC and W columns of R75; the encoder gives the CMD value column. -/

namespace Sys2Proof

/-- Why a word is no command.
All four raise ILLEGAL_COMMAND when executed (R77), except `notOneWord`, which no host access can produce (R78). -/
inductive DecodeError where
  /-- a bit of RSVH, CMD[63:32], is set (R73) -/
  | reservedHigh
  /-- a bit of RSV, CMD[31:9], is set (R73) -/
  | reservedLow
  /-- W = 1 with an assigned OPC that takes no W (R72) -/
  | widthBit
  /-- OPC is unassigned (R71, R77) -/
  | unassignedOpcode
  /-- the bytes are not the eight bytes of one CMD write (R78) -/
  | notOneWord
deriving DecidableEq, Repr

/-- One row of the opcode map: its OPC, its W and its command (R75). -/
structure OpcRow where
  opc : Nat
  w : Nat
  instr : Instr
deriving DecidableEq, Repr

/-- The OPC and W columns of the opcode map (R75). -/
def opcodeMap : List OpcRow :=
  [⟨0x01, 0, .new⟩, ⟨0x02, 0, .resize⟩, ⟨0x03, 0, .shrink⟩, ⟨0x04, 0, .clean⟩, ⟨0x05, 0, .rdlimb⟩,
   ⟨0x06, 0, .wrlimb⟩, ⟨0x10, 0, .setbit⟩, ⟨0x11, 0, .unsetbit⟩, ⟨0x12, 0, .forcebit⟩, ⟨0x13, 0, .isbitset⟩,
   ⟨0x20, 0, .divmod⟩, ⟨0x30, 0, .modinvW32⟩, ⟨0x30, 1, .modinvW64⟩, ⟨0x31, 0, .invoddW32⟩,
   ⟨0x31, 1, .invoddW64⟩]

/-- OPC, CMD[7:0] (R70). -/
def fieldOpc (c : Word) : Nat := c.toNat % 2 ^ 8

/-- W, CMD[8] (R70). -/
def fieldW (c : Word) : Nat := c.toNat / 2 ^ 8 % 2

/-- RSV, CMD[31:9] (R70). -/
def fieldRsv (c : Word) : Nat := c.toNat / 2 ^ 9 % 2 ^ 23

/-- RSVH, CMD[63:32] (R70). -/
def fieldRsvh (c : Word) : Nat := c.toNat / 2 ^ 32

/-- `Decode(c)` (R76): the command, or why the word is ILLEGAL. -/
def decode (c : Word) : Except DecodeError Instr :=
  if fieldRsvh c ≠ 0 then .error .reservedHigh
  else if fieldRsv c ≠ 0 then .error .reservedLow
  else match opcodeMap.find? fun r => r.opc == fieldOpc c && r.w == fieldW c with
    | some r => .ok r.instr
    | none => if opcodeMap.any fun r => r.opc == fieldOpc c then .error .widthBit else .error .unassignedOpcode

/-- The value of bytes whose first is the least significant: byte k holds bits [8k+7:8k] (R55). -/
def ofLanes : List Byte → Nat
  | [] => 0
  | b :: bs => b.toNat + 2 ^ 8 * ofLanes bs

/-- The `n` least significant bytes of a value, least significant first (R55). -/
def toLanes : Nat → Nat → List Byte
  | 0, _ => []
  | n + 1, v => BitVec.ofNat 8 v :: toLanes n (v / 2 ^ 8)

/-- Decode the eight bytes of one write of CMD, as a bus carries them (R55, R78). -/
def decodeBytes (bs : List Byte) : Except DecodeError Instr :=
  if bs.length = 8 then decode (BitVec.ofNat 64 (ofLanes bs)) else .error .notOneWord

/-- The instruction of a table word of `nbits` bits, laid out as the bus carries it; the bits above `nbits` are zero. -/
def decodeTableWord (nbits w : Nat) : Option Instr :=
  match decodeBytes (toLanes 8 (w % 2 ^ nbits)) with
  | .ok i => some i
  | .error _ => none

/-- The CMD value of a command (R75, last but one column). -/
def encode : Instr → Word
  | .new => 0x0000000000000001#64
  | .resize => 0x0000000000000002#64
  | .shrink => 0x0000000000000003#64
  | .clean => 0x0000000000000004#64
  | .rdlimb => 0x0000000000000005#64
  | .wrlimb => 0x0000000000000006#64
  | .setbit => 0x0000000000000010#64
  | .unsetbit => 0x0000000000000011#64
  | .forcebit => 0x0000000000000012#64
  | .isbitset => 0x0000000000000013#64
  | .divmod => 0x0000000000000020#64
  | .modinvW32 => 0x0000000000000030#64
  | .modinvW64 => 0x0000000000000130#64
  | .invoddW32 => 0x0000000000000031#64
  | .invoddW64 => 0x0000000000000131#64

end Sys2Proof
end

