-- ==== Sys2Proof/Machine/HostBus.lean ====
section
/-! DEFINITION. Host accesses of the register window (R20 to R31, R36, R41, R54, R206, R207). -/

namespace Sys2Proof.Machine

/-- The offset of a register from BASE (R20). -/
def HostReg.off : HostReg → Nat
  | .cmd => 0x00
  | .arg0 => 0x08
  | .arg1 => 0x10
  | .res0 => 0x18
  | .res1 => 0x20
  | .status => 0x28
  | .len => 0x30
  | .cap => 0x38
  | .param => 0x40

/-- The register mapped at an offset (R20); offsets 0x48 to 0x7F and offsets that are no multiple of 8 map none (R30). -/
def regAt (off : Nat) : Option HostReg :=
  [HostReg.cmd, .arg0, .arg1, .res0, .res1, .status, .len, .cap, .param].find? fun r => r.off == off

/-- The stored value of a register (R20). -/
def State.stored (s : State) : HostReg → Word
  | .cmd => s.cmd
  | .arg0 => s.arg0
  | .arg1 => s.arg1
  | .res0 => s.res0
  | .res1 => s.res1
  | .status => s.status.word
  | .len => s.len
  | .cap => s.cap
  | .param => s.param

/-- Reads of these registers return an unspecified value while BUSY = 1 (R41). -/
def HostReg.hiddenWhileBusy : HostReg → Bool
  | .res0 | .res1 | .len | .cap => true
  | .cmd | .arg0 | .arg1 | .status | .param => false

/-- `MemRead(BASE + off, 8)` (R54): the stored value, or, for RES0, RES1, LEN and CAP while BUSY = 1, a fresh draw (R41,
R56).
The second component differs from the first state only in the counter of draws. -/
def readReg (r : HostReg) (s : State) : Word × State :=
  if r.hiddenWhileBusy && s.status.busy then (Config.freeWord .busyRead s.fresh, { s with fresh := s.fresh + 1 })
  else (s.stored r, s)

/-- A host write to CMD, ARG0 or ARG1: no effect in the fault state (R206), a collision while BUSY = 1 (R207), and
otherwise the given effect (R36). -/
def guardedWrite (effect : State → State) (s : State) : State :=
  if s.status.fault then s else if s.status.busy then s.collided else effect s

/-- `MemWrite(BASE + off, 8, v)` (R54): a CMD write issues, an ARG write stores (R36), a write to a read-only register
has no effect (R31). -/
def writeReg (r : HostReg) (v : Word) (s : State) : State :=
  match r with
  | .cmd => guardedWrite (State.issued v) s
  | .arg0 => guardedWrite (fun t => { t with arg0 := v }) s
  | .arg1 => guardedWrite (fun t => { t with arg1 := v }) s
  | .res0 | .res1 | .status | .len | .cap | .param => s

/-- The offset of an address inside the window, BASE to BASE + 0x7F (R53). -/
def offsetOf (addr : Nat) : Option Nat :=
  if Config.base ≤ addr ∧ addr < Config.base + 0x80 then some (addr - Config.base) else none

/-- The register a host access of `size` bytes at `addr` reaches, or why it is refused: inside the window by R30 and R54,
outside it by the model's choice (log entry 12). -/
def accessReg (addr size : Nat) : Except Refusal HostReg :=
  match offsetOf addr with
  | none => .error .outsideWindow
  | some off =>
    if size = 8 then
      match regAt off with
      | some r => .ok r
      | none => .error .undefinedAccess
    else .error .undefinedAccess

end Sys2Proof.Machine
end

