-- ==== Sys2Proof/Machine/HostProgram.lean ====
section
/-! DEFINITION. The host program notation: one statement as one turn of the host (R79), and the pseudo-instructions as
their expansions (R80). -/

namespace Sys2Proof.Machine

/-- The variable `t` of `wait` and `checkok` (R79, R80). -/
def tVar : HVar := 0

/-- The value of an operand of a host statement. -/
def HostVal.get (v : HostVal) (h : HostCtx) : Word :=
  match v with
  | .lit w => w
  | .var x => Memory.read h.vars x

/-- Assign a host variable. -/
def State.setVar (hv : HVar) (w : Word) (s : State) : State :=
  { s with host := { s.host with vars := Memory.write s.host.vars hv w } }

/-- Go to the next statement. -/
def State.advance (s : State) : State := { s with host := { s.host with pos := s.host.pos + 1 } }

/-- The position of `name:` in a program. -/
def labelPos (l : Nat) (prog : List HostStmt) : Option Nat := prog.findIdx? fun st => st == .label l

/-- Jump to a label (R79); a label the program does not declare is refused. -/
def jumpTo (l : Nat) (s : State) : Host.Outcome State Fault Refusal :=
  match labelPos l s.host.prog with
  | some k => .next { s with host := { s.host with pos := k } }
  | none => .refused .undefinedLabel

/-- Jump if the condition holds, else go on. -/
def branch (c : Bool) (l : Nat) (s : State) : Host.Outcome State Fault Refusal :=
  if c then jumpTo l s else .next s.advance

/-- `hv <- <read of r>`, then the next statement. -/
def readInto (hv : HVar) (r : HostReg) (s : State) : State :=
  ((readReg r s).2.setVar hv (readReg r s).1).advance

/-- `wait`: one read of STATUS into `t`; the statement is left when bit 0 is 0 (R79). -/
def waitTurn (s : State) : State :=
  let t := (readReg .status s).2.setVar tVar (readReg .status s).1
  if (readReg .status s).1.getLsbD 0 then t else t.advance

/-- One host statement (R79). -/
def hostStmt (st : HostStmt) (s : State) : Host.Outcome State Fault Refusal :=
  match st with
  | .wr r v => .next (writeReg r (v.get s.host) s).advance
  | .cmd i => .next (writeReg .cmd (encode i) s).advance
  | .wait => .next (waitTurn s)
  | .rd hv r => .next (readInto hv r s)
  | .label _ => .next s.advance
  | .bnez hv l => branch (Memory.read s.host.vars hv != 0) l s
  | .beqz hv l => branch (Memory.read s.host.vars hv == 0) l s
  | .push v => .next { s with host := { s.host with out := s.host.out ++ [v.get s.host] } }.advance
  | .halt => .next { s with host := { s.host with mode := .halted } }
  | .stopIfFault hv =>
    if (Memory.read s.host.vars hv).getLsbD 2 then .next { s with host := { s.host with mode := .faultReport } }
    else .next s.advance
  | .memRead hv addr size =>
    match accessReg addr size with
    | .ok r => .next (readInto hv r s)
    | .error e => .refused e
  | .memWrite addr size v =>
    match accessReg addr size with
    | .ok r => .next (writeReg r (v.get s.host) s).advance
    | .error e => .refused e
  | .otherHost => .refused .secondHost

/-- The host's turn: its next statement; a host that has stopped, or has no statement left, makes no access and the
block keeps all its state (R217, R231). -/
def hostTurn (s : State) : Host.Outcome State Fault Refusal :=
  match s.host.mode with
  | .running =>
    match s.host.prog[s.host.pos]? with
    | some st => hostStmt st s
    | none => .next s
  | .halted | .faultReport => .next s

/-! ### Pseudo-instructions (R80) -/

/-- `wr ARG0, <a>` ; `cmd <i>` ; `wait`: the shape of the commands with one operand. -/
def pseudoArg0 (i : Instr) (a : HostVal) : List HostStmt := [.wr .arg0 a, .cmd i, .wait]

/-- `wr ARG0, <a>` ; `wr ARG1, <b>` ; `cmd <i>` ; `wait`: the shape of the commands with two operands. -/
def pseudoArg01 (i : Instr) (a b : HostVal) : List HostStmt := [.wr .arg0 a, .wr .arg1 b, .cmd i, .wait]

/-- `new <cap>` -/
def pseudoNew (cap : HostVal) : List HostStmt := pseudoArg0 .new cap
/-- `resize <cap>` -/
def pseudoResize (cap : HostVal) : List HostStmt := pseudoArg0 .resize cap
/-- `shrink` -/
def pseudoShrink : List HostStmt := [.cmd .shrink, .wait]
/-- `clean` -/
def pseudoClean : List HostStmt := [.cmd .clean, .wait]
/-- `rdlimb <hv>, <i>` -/
def pseudoRdlimb (hv : HVar) (i : HostVal) : List HostStmt := pseudoArg0 .rdlimb i ++ [.rd hv .res0]
/-- `wrlimb <i>, <v>` -/
def pseudoWrlimb (i v : HostVal) : List HostStmt := pseudoArg01 .wrlimb i v
/-- `setbit <pos>` -/
def pseudoSetbit (pos : HostVal) : List HostStmt := pseudoArg0 .setbit pos
/-- `unsetbit <pos>` -/
def pseudoUnsetbit (pos : HostVal) : List HostStmt := pseudoArg0 .unsetbit pos
/-- `forcebit <pos>, <value>` -/
def pseudoForcebit (pos value : HostVal) : List HostStmt := pseudoArg01 .forcebit pos value
/-- `isbitset <hv>, <pos>` -/
def pseudoIsbitset (hv : HVar) (pos : HostVal) : List HostStmt := pseudoArg0 .isbitset pos ++ [.rd hv .res0]
/-- `divmod <hv>, <d>` -/
def pseudoDivmod (hv : HVar) (d : HostVal) : List HostStmt := pseudoArg0 .divmod d ++ [.rd hv .res0]
/-- `invodd.w32 <hv>, <b>` -/
def pseudoInvoddW32 (hv : HVar) (b : HostVal) : List HostStmt := pseudoArg0 .invoddW32 b ++ [.rd hv .res0]
/-- `invodd.w64 <hv>, <b>` -/
def pseudoInvoddW64 (hv : HVar) (b : HostVal) : List HostStmt := pseudoArg0 .invoddW64 b ++ [.rd hv .res0]
/-- `modinv.w32 <hv>, <hs>, <b>` -/
def pseudoModinvW32 (hv hs : HVar) (b : HostVal) : List HostStmt :=
  pseudoArg0 .modinvW32 b ++ [.rd hv .res0, .rd hs .res1]
/-- `modinv.w64 <hv>, <hs>, <b>` -/
def pseudoModinvW64 (hv hs : HVar) (b : HostVal) : List HostStmt :=
  pseudoArg0 .modinvW64 b ++ [.rd hv .res0, .rd hs .res1]
/-- `checkok` -/
def pseudoCheckok : List HostStmt := [.rd tVar .status, .stopIfFault tVar]

end Sys2Proof.Machine
end

