-- ==== Sys2Proof/Machine/Sequencer.lean ====
section
/-! DEFINITION. The command sequencer: the completion step (R37, R76), and whose turn it is (R9, R230). -/

namespace Sys2Proof.Machine

/-- The completion step (R37): decode the latched word and run its command, or raise ILLEGAL_COMMAND (R76). -/
def completion (s : State) : Host.Outcome State Fault Refusal :=
  match s.pend with
  | none => .fault .noCommandInFlight
  | some p =>
    match decode p.word with
    | .ok i => exec i s
    | .error _ => raiseFault .illegalCommand s

/-- The block's turn: the completion step while BUSY = 1 (R37); none in the fault state (R206) and none when idle
(R217). -/
def blockTurn (s : State) : Host.Outcome State Fault Refusal :=
  if s.status.fault then .next s else if s.status.busy then completion s else .next s

/-- The turn of one agent. -/
def takeTurn (t : Turn) (s : State) : Host.Outcome State Fault Refusal :=
  match t with
  | .host => hostTurn s
  | .block => blockTurn s
  | .reset => .next s.resetBlock

/-- Whose turn it is: the schedule's head; when the schedule is empty, the block's if a command is in flight and its
LATENCY has passed, else the host's.
LATENCY is finite, so the completion step is taken at last (R9, R37; log entry 3). -/
def State.turn (s : State) : Turn :=
  match s.schedule with
  | t :: _ => t
  | [] => if s.status.busy && s.latency == 0 then .block else .host

/-- Whether the turn counts against the LATENCY of a command in flight: the schedule does not list it (R9). -/
def State.turnCounts (s : State) : Bool := s.schedule.isEmpty && s.status.busy

/-- The state with its turn used up: off the schedule, or else off the LATENCY of the command in flight. -/
def State.popTurn (s : State) : State :=
  { s with
    schedule := s.schedule.tail
    latency := if s.turnCounts then s.latency - 1 else s.latency }

/-- A word of `nbits` bits as CMD holds it, the bits above `nbits` zero (R70). -/
def fetchWord (nbits w : Nat) : Word := BitVec.ofNat 64 (w % 2 ^ nbits)

/-- The state in which the block's next step is the completion step of the word: the word is issued (R36) to a block
that is not faulted, and the block moves next (log entry 10). -/
def placeCommand (w : Word) (s : State) : State :=
  { State.issued w { s with status := Status.cleared } with schedule := .block :: s.schedule }

end Sys2Proof.Machine
end

