-- ==== Sys2Proof/Machine/Step.lean ====
section
/-! DEFINITION. One step of BNDIV with its host: the turn of one agent. -/

namespace Sys2Proof.Machine

/-- One step: the agent whose turn it is moves. -/
def step (s : State) : Host.Outcome State Fault Refusal := takeTurn s.turn s.popTurn

/-- The state with the word issued, so that the next step is its completion step.
BNDIV fetches nothing (R35, R62): the command the block runs next is the one latched in PEND. -/
def State.withFetchWord (s : State) (nbits w : Nat) : State := placeCommand (fetchWord nbits w) s

end Sys2Proof.Machine
end

