-- ==== Sys2Proof/Safety.lean ====
section
/-! DEFINITION. The terms claims are stated in: the invariant of every run (R26, R33, R34, R38), what a completed command
and a fault have in common (R37, R205), and what a step leaves alone. -/

namespace Sys2Proof.Machine

/-- `LEN <= CAP <= CAP_MAX` (R33). -/
def State.lengthsOrdered (s : State) : Prop := s.len.toNat ≤ s.cap.toNat ∧ s.cap.toNat ≤ s.capMax

/-- `L[i] = 0` for every i with `LEN <= i < CAP` (R34). -/
def State.tailZero (s : State) : Prop :=
  ∀ i, s.len.toNat ≤ i → i < s.cap.toNat → Memory.read s.limbs i = 0

/-- The invariant of every run. -/
structure State.Inv (s : State) : Prop where
  /-- `0 < CAP_MAX < 2^58` (R7) -/
  capMax_legal : 0 < s.capMax ∧ s.capMax < 2 ^ 58
  /-- `PEND != none` exactly when BUSY = 1 (R38) -/
  pend_iff_busy : s.pend.isSome = s.status.busy
  /-- PEND holds what was latched at issue, and CMD, ARG0 and ARG1 cannot change while a command is in flight (R36) -/
  latched : ∀ p, s.pend = some p → p = ⟨s.cmd, s.arg0, s.arg1⟩
  /-- at most one of BUSY and FAULT is 1 (R26) -/
  not_busy_and_fault : ¬(s.status.busy = true ∧ s.status.fault = true)
  /-- DONE = 1 implies BUSY = 0 and FAULT = 0 (R26) -/
  done_idle : s.status.done = true → s.status.busy = false ∧ s.status.fault = false
  /-- ERRCODE is 0 while FAULT = 0, and a fault has a code (R26, R200) -/
  err_iff_fault : s.status.err = .none ↔ s.status.fault = false
  /-- R33 -/
  lengths : s.status.fault = false → s.lengthsOrdered
  /-- R34 -/
  tail : s.status.fault = false → s.tailZero
  /-- the limb store is in canonical form -/
  limbs_wf : Memory.wf s.limbs
  /-- the limb store has CAP_MAX limbs (R32) -/
  limbs_physical : ∀ c ∈ s.limbs, c.1 < s.capMax
  /-- the host's variables are in canonical form -/
  vars_wf : Memory.wf s.host.vars

/-- A state a run may end in: no command in flight (R38) and no fault, which is never final (R206). -/
def State.final (s : State) : Prop := s.pend = none ∧ s.status.fault = false

/-- Every limb reads as before. -/
def LimbsSame (s t : State) : Prop := ∀ i, Memory.read t.limbs i = Memory.read s.limbs i

/-- L, LEN, CAP, RES0 and RES1 are as before. -/
structure DataSame (s t : State) : Prop where
  limbs : LimbsSame s t
  len : t.len = s.len
  cap : t.cap = s.cap
  res0 : t.res0 = s.res0
  res1 : t.res1 = s.res1

/-- CMD, ARG0, ARG1 and PARAM, the host's side, the schedule and the LATENCY drawn at issue are as before: no command
writes them (R22, R23, R29). -/
structure OperandsSame (s t : State) : Prop where
  cmd : t.cmd = s.cmd
  arg0 : t.arg0 = s.arg0
  arg1 : t.arg1 = s.arg1
  param : t.param = s.param
  host : t.host = s.host
  schedule : t.schedule = s.schedule
  latency : t.latency = s.latency

/-- What every completion without fault has in common (R37): BUSY cleared, DONE set, the other STATUS fields kept, PEND
emptied, the operands kept. -/
structure CompletedFrom (s t : State) : Prop extends OperandsSame s t where
  status : t.status = { s.status with busy := false, done := true }
  pend : t.pend = none

/-- What every fault of a command has in common (R205): STATUS shows FAULT and the code, PEND is emptied, CMD, ARG0 and
ARG1 are kept (R201). -/
structure FaultedFrom (code : FaultCode) (s t : State) : Prop extends OperandsSame s t where
  status : t.status = ⟨false, false, true, code⟩
  pend : t.pend = none

/-- A precise fault: the command ends in the fault state with none of its effect (R205). -/
def TrapsPrecisely (o : Host.Outcome State Fault Refusal) (code : FaultCode) (s : State) : Prop :=
  ∃ t, o = .next t ∧ FaultedFrom code s t ∧ DataSame s t

/-- Everything the block holds, but for the working registers that nothing reads (R39, R40). -/
structure BlockSame (s t : State) : Prop where
  data : DataSame s t
  cmd : t.cmd = s.cmd
  arg0 : t.arg0 = s.arg0
  arg1 : t.arg1 = s.arg1
  param : t.param = s.param
  status : t.status = s.status
  pend : t.pend = s.pend

/-- `t` is `s` but for the content of limbs that are not allocated, at index CAP or above (R32). -/
structure SameButUnallocated (s t : State) : Prop where
  rest : t = { s with limbs := t.limbs }
  limbs : ∀ i, i < s.cap.toNat → Memory.read t.limbs i = Memory.read s.limbs i

/-- The state with a command's operands latched, as an issue leaves them (R36): what the next command's meaning is run
on. -/
def State.latch (i : Instr) (a0 a1 : Word) (s : State) : State :=
  { s with pend := some ⟨encode i, a0, a1⟩ }

/-- `k` DIVMODs by `d`, one after another, with the remainders in order; `none` if one faults (R144). -/
def divideTimes (d : Word) : Nat → State → Option (List Word × State)
  | 0, s => some ([], s)
  | k + 1, s =>
    match exec .divmod (s.latch .divmod d 0) with
    | .next t =>
      if t.status.fault then none
      else (divideTimes d k t).map fun r => (t.res0 :: r.1, r.2)
    | .fault _ | .refused _ => none

/-- `sum over j of r_j * d^j` (R144). -/
def digitSum (d : Nat) : List Word → Nat
  | [] => 0
  | r :: rs => r.toNat + d * digitSum d rs

end Sys2Proof.Machine
end

