-- ==== Sys2Proof/Certificates/Slice0/Obligations.lean ====
section
/-! DEFINITION. The statements for the provers. Each docstring names the rule it formalises, or the sections it rests
on. -/

open Sys2Proof Sys2Proof.Machine

/-! ### Encoding (30_encoding.md) -/

/-- R75, sample words written out from the table and from test vectors EP1 to EP5. -/
def Obligations.SampleCommandWordsDecode : Prop :=
  decode 0x0000000000000001#64 = .ok .new ∧ decode 0x0000000000000012#64 = .ok .forcebit ∧
  decode 0x0000000000000020#64 = .ok .divmod ∧ decode 0x0000000000000130#64 = .ok .modinvW64 ∧
  decode 0x0000000000000031#64 = .ok .invoddW32 ∧
  decode 0x0000000000000000#64 = .error .unassignedOpcode ∧ decode 0x0000000000000120#64 = .error .widthBit ∧
  decode 0x0000000100000010#64 = .error .reservedHigh ∧ decode 0x0000000000000210#64 = .error .reservedLow

/-- Every command's CMD value decodes to it, as a word and as the bytes a bus carries (R55, R75, R76). -/
def Obligations.EncodedCommandDecodesBack : Prop :=
  ∀ i : Instr, commandWordWf (encode i) = true ∧ decode (encode i) = .ok i ∧
    decodeBytes (toLanes 8 (encode i).toNat) = .ok i

/-- R75: the whole opcode map, value by value.
Decode answers a command exactly on its row's CMD value, all 64 bits of it, which is also what the encoder gives; so no
two rows share one. -/
def Obligations.DecodeAcceptsExactlyTheTable : Prop :=
  (∀ (c : Word) (i : Instr), decode c = .ok i ↔
    (c, i) ∈ [(0x0000000000000001#64, Instr.new), (0x0000000000000002#64, .resize), (0x0000000000000003#64, .shrink),
      (0x0000000000000004#64, .clean), (0x0000000000000005#64, .rdlimb), (0x0000000000000006#64, .wrlimb),
      (0x0000000000000010#64, .setbit), (0x0000000000000011#64, .unsetbit), (0x0000000000000012#64, .forcebit),
      (0x0000000000000013#64, .isbitset), (0x0000000000000020#64, .divmod), (0x0000000000000030#64, .modinvW32),
      (0x0000000000000130#64, .modinvW64), (0x0000000000000031#64, .invoddW32), (0x0000000000000131#64, .invoddW64)]) ∧
  (∀ (c : Word) (i : Instr), decode c = .ok i ↔ c = encode i) ∧
  ∀ i j : Instr, encode i = encode j → i = j

/-- R77: which words are illegal, by the fields of R70, and that executing one raises ILLEGAL_COMMAND and changes nothing
but STATUS and PEND. -/
def Obligations.IllegalWordsRaiseIllegalCommand : Prop :=
  ∀ c : Word,
    ((∃ e, decode c = .error e) ↔
      c.extractLsb' 9 55 ≠ 0 ∨
      (c.getLsbD 8 = true ∧ c.extractLsb' 0 8 ≠ 0x30#8 ∧ c.extractLsb' 0 8 ≠ 0x31#8) ∨
      (let opc := (c.extractLsb' 0 8).toNat
       opc = 0 ∨ (0x07 ≤ opc ∧ opc ≤ 0x0f) ∨ (0x14 ≤ opc ∧ opc ≤ 0x1f) ∨ (0x21 ≤ opc ∧ opc ≤ 0x2f) ∨ 0x32 ≤ opc)) ∧
    ∀ (s : State) (p : Pend) (e : DecodeError), s.pend = some p → p.word = c → decode c = .error e →
      TrapsPrecisely (completion s) .illegalCommand s

/-- R70 to R73: the decoder accepts exactly the words that pass the static check. -/
def Obligations.DecoderAgreesWithStaticCheck : Prop :=
  ∀ c : Word, (∃ i, decode c = .ok i) ↔ commandWordWf c = true

/-- R55: byte k of a register's eight bus bytes is bits [8k+7:8k], and the decoder reads them back. -/
def Obligations.BusBytesAreLittleEndian : Prop :=
  ∀ c : Word, (toLanes 8 c.toNat).length = 8 ∧
    (∀ k, k < 8 → (toLanes 8 c.toNat)[k]? = some (c.extractLsb' (8 * k) 8)) ∧
    decodeBytes (toLanes 8 c.toNat) = decode c

/-! ### Reset and the invariant -/

/-- R42: the values the spec gives for reset.
The limbs and the working registers are not named: the spec gives them none. -/
def Obligations.ResetRegistersAsStated : Prop :=
  State.reset.cmd = 0 ∧ State.reset.arg0 = 0 ∧ State.reset.arg1 = 0 ∧ State.reset.res0 = 0 ∧ State.reset.res1 = 0 ∧
  State.reset.status.word = 0 ∧ State.reset.len = 0 ∧ State.reset.cap = 0 ∧
  State.reset.param.toNat = Config.capMax ∧ capMaxLegal State.reset.capMax = true ∧ State.reset.pend = none

/-- The invariant holds right after reset. -/
def Obligations.ResetStateMeetsInvariant : Prop := State.reset.Inv

/-- R26, R33, R34 and R38 as one invariant, with the canonical form of the stores: every step of any agent keeps it. -/
def Obligations.StepKeepsInvariant : Prop :=
  ∀ s t : State, s.Inv → step s = .next t → t.Inv

/-- R230: the reset turn, from any state at all, a fault or a command in flight included. -/
def Obligations.ResetTurnRestoresBlock : Prop :=
  ∀ s : State, s.turn = .reset →
    ∃ t, step s = .next t ∧ t.cmd = 0 ∧ t.arg0 = 0 ∧ t.arg1 = 0 ∧ t.res0 = 0 ∧ t.res1 = 0 ∧ t.status.word = 0 ∧
      t.len = 0 ∧ t.cap = 0 ∧ t.param = s.param ∧ t.pend = none

/-- The model's choice (log entry 15): the reset turn leaves the host's side and the rest of the schedule, and the limbs
become a free draw (log entry 7). -/
def Obligations.ResetTurnKeepsHostSide : Prop :=
  ∀ (s : State) (rest : List Turn), s.schedule = .reset :: rest →
    ∃ t, step s = .next t ∧ t.host = s.host ∧ t.schedule = rest ∧ t.limbs = drawLimbs s.capMax s.fresh

/-! ### The host's accesses and the busy protocol -/

/-- R26, R200: the fields of the STATUS word, every other bit of which reads 0, and the number of each fault code. -/
def Obligations.StatusWordShowsFields : Prop :=
  ∀ st : Status,
    st.word.getLsbD 0 = st.busy ∧ st.word.getLsbD 1 = st.done ∧ st.word.getLsbD 2 = st.fault ∧
    st.word.extractLsb' 3 5 = 0 ∧ st.word.extractLsb' 12 52 = 0 ∧
    (st.word.extractLsb' 8 4).toNat = (match st.err with
      | .none => 0
      | .invalidDigit => 1
      | .capacityViolation => 2
      | .rangeViolation => 3
      | .invariantViolation => 4
      | .operandViolation => 5
      | .illegalCommand => 6
      | .busyCollision => 7) ∧
    st.err.code = st.word.extractLsb' 8 4

/-- R36: a host write of CMD, ARG0 or ARG1 has no effect in the fault state, raises BUSY_COLLISION while BUSY = 1, and
otherwise issues or stores.
Nothing is said of the LATENCY that an issue draws: `IssueDrawsOpenLatency` is about it. -/
def Obligations.HostWriteIssuesOrStores : Prop :=
  ∀ (s : State) (v : Word),
    (s.status.fault = true → writeReg .cmd v s = s ∧ writeReg .arg0 v s = s ∧ writeReg .arg1 v s = s) ∧
    (s.status.fault = false → s.status.busy = true →
      (writeReg .cmd v s).status = ⟨false, false, true, .busyCollision⟩ ∧
      (writeReg .arg0 v s).status = ⟨false, false, true, .busyCollision⟩ ∧
      (writeReg .arg1 v s).status = ⟨false, false, true, .busyCollision⟩) ∧
    (s.status.fault = false → s.status.busy = false →
      writeReg .cmd v s =
        { s with
          cmd := v
          status := { s.status with busy := true, done := false }
          pend := some ⟨v, s.arg0, s.arg1⟩
          latency := (writeReg .cmd v s).latency } ∧
      writeReg .arg0 v s = { s with arg0 := v } ∧ writeReg .arg1 v s = { s with arg1 := v })

/-- R9: the LATENCY of a command is a free value of the command and the state, drawn at its issue (log entries 3 and 17).
Where the schedule lists no turn, the host moves until that many of its turns have passed, and then the block does. -/
def Obligations.IssueDrawsOpenLatency : Prop :=
  (∀ (s : State) (v : Word), s.status.fault = false → s.status.busy = false →
    (writeReg .cmd v s).latency = Config.freeLatency s.fresh
      ⟨v, s.arg0, s.arg1, s.res0, s.res1, s.status.done, s.len, s.cap, s.param, s.value⟩) ∧
  (∀ s : State, s.schedule = [] → s.status.busy = true →
    (s.latency = 0 → s.turn = .block) ∧ (s.latency ≠ 0 → s.turn = .host ∧ s.popTurn.latency + 1 = s.latency)) ∧
  ∀ (s : State) (t : Turn) (rest : List Turn), s.schedule = t :: rest →
    s.turn = t ∧ s.popTurn = { s with schedule := rest }

/-- R207: a write of CMD, ARG0 or ARG1 while BUSY = 1.
L, LEN, CAP, RES0 and RES1 become free draws, of which nothing is known (log entry 5). -/
def Obligations.BusyWriteCollides : Prop :=
  ∀ (s : State) (r : HostReg) (v : Word), r = .cmd ∨ r = .arg0 ∨ r = .arg1 →
    s.status.fault = false → s.status.busy = true →
    FaultedFrom .busyCollision s (writeReg r v s) ∧ (writeReg r v s).status.word = 0x704 ∧
    (writeReg r v s).limbs = drawLimbs s.capMax s.fresh ∧
    (writeReg r v s).len = Config.freeWord .collisionLen s.fresh ∧
    (writeReg r v s).cap = Config.freeWord .collisionCap s.fresh ∧
    (writeReg r v s).res0 = Config.freeWord .collisionRes0 s.fresh ∧
    (writeReg r v s).res1 = Config.freeWord .collisionRes1 s.fresh

/-- R31: a write of a read-only register has no effect, whatever BUSY and FAULT are. -/
def Obligations.ReadOnlyWriteHasNoEffect : Prop :=
  ∀ (s : State) (r : HostReg) (v : Word),
    r = .res0 ∨ r = .res1 ∨ r = .status ∨ r = .len ∨ r = .cap ∨ r = .param → writeReg r v s = s

/-- R41, R56: every read returns the stored value and changes nothing, but for RES0, RES1, LEN and CAP while BUSY = 1,
which return a free draw, a new one for each read (log entry 4), and change nothing the block holds. -/
def Obligations.ReadsHaveNoSideEffect : Prop :=
  ∀ (s : State) (r : HostReg),
    (s.status.busy = false ∨ r = .cmd ∨ r = .arg0 ∨ r = .arg1 ∨ r = .status ∨ r = .param →
      readReg r s = (s.stored r, s)) ∧
    (s.status.busy = true → r = .res0 ∨ r = .res1 ∨ r = .len ∨ r = .cap →
      readReg r s = (Config.freeWord .busyRead s.fresh, { s with fresh := s.fresh + 1 })) ∧
    BlockSame s (readReg r s).2 ∧ (readReg r s).2.host = s.host ∧ (readReg r s).2.work = s.work

/-- R20, R54: at BASE plus each offset of the map, an aligned 8-byte access reaches that register. -/
def Obligations.MappedOffsetReachesRegister : Prop :=
  ∀ (s : State) (hv : HVar) (v : Word) (off : Nat) (r : HostReg),
    (off, r) ∈ [(0x00, HostReg.cmd), (0x08, .arg0), (0x10, .arg1), (0x18, .res0), (0x20, .res1), (0x28, .status),
      (0x30, .len), (0x38, .cap), (0x40, .param)] →
    hostStmt (.memRead hv (Config.base + off) 8) s = .next (readInto hv r s) ∧
    hostStmt (.memWrite (Config.base + off) 8 (.lit v)) s = .next (writeReg r v s).advance

/-- R30, R54: an access inside the window that is of another width, misaligned, or at 0x48 to 0x7F is refused; every
other one reaches the register at its offset. -/
def Obligations.UndefinedAccessIsRefused : Prop :=
  ∀ (s : State) (hv : HVar) (v : HostVal) (off size : Nat), off < 0x80 →
    (size ≠ 8 ∨ off % 8 ≠ 0 ∨ 0x48 ≤ off →
      hostStmt (.memRead hv (Config.base + off) size) s = .refused .undefinedAccess ∧
      hostStmt (.memWrite (Config.base + off) size v) s = .refused .undefinedAccess) ∧
    (size = 8 → off % 8 = 0 → off < 0x48 →
      ∃ r : HostReg, r.off = off ∧
        hostStmt (.memRead hv (Config.base + off) size) s = .next (readInto hv r s) ∧
        hostStmt (.memWrite (Config.base + off) size v) s = .next (writeReg r (v.get s.host) s).advance)

/-- An access by a second host is refused (R64).
An access of any width at an address outside BASE to BASE + 0x7F is refused too: that is the model's choice (log entry
12), for R53 gives the range of the window and no rule says what such an access does. -/
def Obligations.ForeignAccessIsRefused : Prop :=
  ∀ (s : State) (hv : HVar) (v : HostVal) (addr size : Nat),
    (addr < Config.base ∨ Config.base + 0x7f < addr →
      hostStmt (.memRead hv addr size) s = .refused .outsideWindow ∧
      hostStmt (.memWrite addr size v) s = .refused .outsideWindow) ∧
    hostStmt .otherHost s = .refused .secondHost

/-- R206: what the fault state ignores, what it still answers, and that only the reset turn leaves it.
The premise BUSY = 0 is part of the invariant (R26). -/
def Obligations.FaultStateLeftOnlyByReset : Prop :=
  ∀ s : State, s.status.fault = true → s.status.busy = false →
    (∀ r v, writeReg r v s = s) ∧ blockTurn s = .next s ∧ (∀ r, readReg r s = (s.stored r, s)) ∧
    (∀ t, s.turn ≠ .reset → step s = .next t → BlockSame s t) ∧ s.resetBlock.status.fault = false ∧ ¬ s.final

/-! ### The step -/

/-- R37, R76: when it is the block's turn and BUSY = 1, the step is the completion step on the same state less the turn;
where the latched word decodes to a command, that is the command's meaning. -/
def Obligations.StepRunsLatchedCommand : Prop :=
  ∀ (s : State) (p : Pend), s.turn = .block → s.status.fault = false → s.status.busy = true → s.pend = some p →
    step s = completion { s with schedule := s.schedule.tail } ∧
    ∀ i, decode p.word = .ok i → step s = exec i { s with schedule := s.schedule.tail }

/-- R37, R76: with a command latched, the completion step always answers a next state, with PEND emptied, BUSY cleared,
DONE set exactly when no fault was raised, and the operands kept. -/
def Obligations.CompletionStepEndsCommand : Prop :=
  ∀ (s : State) (p : Pend), s.pend = some p → s.status.fault = false →
    ∃ t, completion s = .next t ∧ t.pend = none ∧ t.status.busy = false ∧ t.status.done = !t.status.fault ∧
      (t.status.fault = false → t.status.err = s.status.err) ∧ OperandsSame s t

/-- R217, R37: the block has no step of its own while BUSY = 0. -/
def Obligations.IdleBlockKeepsItsState : Prop :=
  ∀ s : State, s.status.busy = false → blockTurn s = .next s

/-- R79: on the host's turn, the step is the host program's statement, on the same state less the turn.
That one statement is one turn is the model's choice (log entry 9). -/
def Obligations.HostTurnRunsItsStatement : Prop :=
  ∀ (s : State) (st : HostStmt), s.turn = .host → s.host.mode = .running →
    s.host.prog[s.host.pos]? = some st →
    step s = hostStmt st
      { s with
        schedule := s.schedule.tail
        latency := if s.schedule = [] ∧ s.status.busy = true then s.latency - 1 else s.latency }

/-- R24, R25, R27, R28, R32: L, LEN, CAP, RES0 and RES1 change only in a completion step, a reset, or a collision. -/
def Obligations.OnlyTheseStepsChangeResults : Prop :=
  ∀ s t : State, step s = .next t → ¬ DataSame s t →
    s.turn = .reset ∨
    (s.turn = .block ∧ s.status.busy = true ∧ s.status.fault = false ∧ t.pend = none ∧ t.status.busy = false) ∨
    (s.turn = .host ∧ s.status.busy = true ∧ s.status.fault = false ∧ t.status = ⟨false, false, true, .busyCollision⟩)

/-- R9, R37: a command in flight ends, unless a host statement is refused first: within one step more than the schedule
lists and its LATENCY has left, BUSY has been 0, or a host statement has been refused.
The schedule and the count of LATENCY in turns, and so the bound, are the model's choice (log entry 3). -/
def Obligations.BusyCommandEndsUnlessRefused : Prop :=
  ∀ s : State, s.Inv → s.status.busy = true →
    ∃ k, k ≤ s.schedule.length + s.latency + 1 ∧
      ((∃ t, core.run k s = .next t ∧ t.status.busy = false) ∨ ∃ r, core.run k s = .refused r)

/-- R32: the content of limbs at or above CAP is never observable.
Two states that differ only there step alike, and still differ only there.
That the two steps make equal free draws, LATENCY among them, is the model's choice (log entries 14 and 17). -/
def Obligations.UnallocatedLimbsAreNeverObservable : Prop :=
  ∀ s t : State, s.Inv → SameButUnallocated s t →
    (∃ s' t', step s = .next s' ∧ step t = .next t' ∧ SameButUnallocated s' t') ∨
    ∃ r, step s = .refused r ∧ step t = .refused r

/-! ### Whole-machine rules about commands -/

/-- R22, R23, R29, R201: no command writes CMD, ARG0, ARG1 or PARAM, and none ends with a command in flight. -/
def Obligations.CommandsKeepOperandRegisters : Prop :=
  ∀ (i : Instr) (s t : State), exec i s = .next t →
    OperandsSame s t ∧ t.pend = none ∧ t.status.busy = false

/-- R200: which command raises which code. -/
def Obligations.FaultCodesRaisedBy : Prop :=
  ∀ (i : Instr) (s t : State), s.status.err = .none → exec i s = .next t →
    (t.status.err = .capacityViolation → i ∈ [Instr.setbit, .forcebit, .rdlimb, .wrlimb, .new, .resize]) ∧
    (t.status.err = .rangeViolation → i ∈ [Instr.unsetbit, .isbitset]) ∧
    (t.status.err = .invariantViolation → i = .divmod) ∧
    (t.status.err = .operandViolation →
      i ∈ [Instr.divmod, .invoddW32, .invoddW64, .modinvW32, .modinvW64, .forcebit]) ∧
    t.status.err ≠ .invalidDigit ∧ t.status.err ≠ .illegalCommand ∧ t.status.err ≠ .busyCollision

/-- R202: the causes of OPERAND_VIOLATION, one for each command that has one. -/
def Obligations.OperandViolationCauses : Prop :=
  ∀ (i : Instr) (s : State) (p : Pend), s.pend = some p → s.status.err = .none →
    ((∃ t, exec i s = .next t ∧ t.status.err = .operandViolation) ↔
      (i = .divmod ∧ p.a0 = 0) ∨
      (i = .invoddW32 ∧ (p.a0.toNat % 2 = 0 ∨ 2 ^ 32 ≤ p.a0.toNat)) ∨
      (i = .invoddW64 ∧ p.a0.toNat % 2 = 0) ∨
      (i = .modinvW32 ∧ (p.a0 = 0 ∨ 2 ^ 32 ≤ p.a0.toNat)) ∨
      (i = .modinvW64 ∧ p.a0 = 0) ∨
      (i = .forcebit ∧ 1 < p.a1.toNat))

/-- R205: a fault of the completion step enters the fault state; it is precise, but for DIVMOD's INVARIANT_VIOLATION,
which leaves DIVMOD's writes. -/
def Obligations.CommandFaultsArePrecise : Prop :=
  ∀ (s t : State), s.status.fault = false → completion s = .next t → t.status.fault = true →
    FaultedFrom t.status.err s t ∧
    (t.status.err ≠ .invariantViolation → DataSame s t) ∧
    (t.status.err = .invariantViolation →
      ∃ p, s.pend = some p ∧ decode p.word = .ok .divmod ∧ 2 ≤ p.a0.toNat ∧ DataSame (divided p.a0.toNat s) t)

/-- R23, R74: an operand marked "unused" is not read.
That the free draws of the two runs are equal is the model's choice (log entry 14). -/
def Obligations.UnusedOperandsAreNotRead : Prop :=
  ∀ (i : Instr) (s : State) (w a0 a1 b0 b1 : Word),
    (i ≠ .wrlimb ∧ i ≠ .forcebit →
      exec i { s with pend := some ⟨w, a0, a1⟩ } = exec i { s with pend := some ⟨w, a0, b1⟩ }) ∧
    (i = .shrink ∨ i = .clean →
      exec i { s with pend := some ⟨w, a0, a1⟩ } = exec i { s with pend := some ⟨w, b0, b1⟩ })

/-! ### Limb storage (40_limb_storage.md) -/

/-- R100, NEW. -/
def Obligations.NewAllocatesZeroedLimbs : Prop :=
  ∀ (s : State) (p : Pend), s.pend = some p →
    (s.capMax < p.a0.toNat → TrapsPrecisely (exec .new s) .capacityViolation s) ∧
    (p.a0.toNat ≤ s.capMax →
      ∃ t, exec .new s = .next t ∧ CompletedFrom s t ∧ t.cap = p.a0 ∧ t.len = 0 ∧
        (∀ i, Memory.read t.limbs i = if i < p.a0.toNat then 0 else Memory.read s.limbs i) ∧
        t.res0 = s.res0 ∧ t.res1 = s.res1)

/-- R101, RESIZE; the last clause is the corner case that a shrink drops only zero limbs where R34 holds. -/
def Obligations.ResizeMovesCapacity : Prop :=
  ∀ (s : State) (p : Pend), s.pend = some p →
    (s.capMax < p.a0.toNat ∨ p.a0.toNat < s.len.toNat → TrapsPrecisely (exec .resize s) .capacityViolation s) ∧
    (p.a0.toNat ≤ s.capMax → s.len.toNat ≤ p.a0.toNat →
      ∃ t, exec .resize s = .next t ∧ CompletedFrom s t ∧ t.cap = p.a0 ∧ t.len = s.len ∧
        (∀ i, Memory.read t.limbs i =
          if s.cap.toNat ≤ i ∧ i < p.a0.toNat then 0 else Memory.read s.limbs i) ∧
        t.res0 = s.res0 ∧ t.res1 = s.res1 ∧
        (s.tailZero → ∀ i, p.a0.toNat ≤ i → i < s.cap.toNat → Memory.read t.limbs i = 0))

/-- R102, SHRINK. -/
def Obligations.ShrinkTrimsCapacity : Prop :=
  ∀ (s : State) (p : Pend), s.pend = some p →
    ∃ t, exec .shrink s = .next t ∧ CompletedFrom s t ∧ t.cap = s.len ∧ t.len = s.len ∧ LimbsSame s t ∧
      t.res0 = s.res0 ∧ t.res1 = s.res1

/-- R103, CLEAN: the new LEN is the index of the highest nonzero limb below LEN, plus 1, or 0. -/
def Obligations.CleanNormalisesLength : Prop :=
  ∀ (s : State) (p : Pend), s.pend = some p →
    ∃ t, exec .clean s = .next t ∧ CompletedFrom s t ∧ t.len.toNat ≤ s.len.toNat ∧
      (∀ i, t.len.toNat ≤ i → i < s.len.toNat → Memory.read s.limbs i = 0) ∧
      (t.len = 0 ∨ Memory.read s.limbs (t.len.toNat - 1) ≠ 0) ∧
      t.normalised = true ∧ t.value = s.value ∧ t.cap = s.cap ∧ LimbsSame s t ∧ t.res0 = s.res0 ∧ t.res1 = s.res1

/-- R104, RDLIMB; the last clause is the corner case of an index in [LEN, CAP) where R34 holds. -/
def Obligations.RdlimbReturnsLimb : Prop :=
  ∀ (s : State) (p : Pend), s.pend = some p →
    (s.cap.toNat ≤ p.a0.toNat → TrapsPrecisely (exec .rdlimb s) .capacityViolation s) ∧
    (p.a0.toNat < s.cap.toNat →
      ∃ t, exec .rdlimb s = .next t ∧ CompletedFrom s t ∧ t.res0 = Memory.read s.limbs p.a0.toNat ∧
        t.len = s.len ∧ t.cap = s.cap ∧ LimbsSame s t ∧ t.res1 = s.res1 ∧
        (s.tailZero → s.len.toNat ≤ p.a0.toNat → t.res0 = 0))

/-- R105, WRLIMB; the last clause is the corner case of the limbs between LEN and the index where R34 holds. -/
def Obligations.WrlimbStoresLimb : Prop :=
  ∀ (s : State) (p : Pend), s.pend = some p →
    (s.cap.toNat ≤ p.a0.toNat → TrapsPrecisely (exec .wrlimb s) .capacityViolation s) ∧
    (p.a0.toNat < s.cap.toNat →
      ∃ t, exec .wrlimb s = .next t ∧ CompletedFrom s t ∧
        (∀ i, Memory.read t.limbs i = if i = p.a0.toNat then p.a1 else Memory.read s.limbs i) ∧
        t.len.toNat = max s.len.toNat (p.a0.toNat + 1) ∧ t.cap = s.cap ∧ t.res0 = s.res0 ∧ t.res1 = s.res1 ∧
        (s.tailZero → ∀ j, s.len.toNat ≤ j → j < p.a0.toNat →
          Memory.read s.limbs j = 0 ∧ Memory.read t.limbs j = 0))

/-! ### Bit access (41_bit_access.md) -/

/-- R51: where a flat bit position lives. -/
def Obligations.BitPositionSplits : Prop :=
  ∀ pos : Word, limbIndex pos = pos.toNat / 64 ∧ limbOffset pos = pos.toNat % 64 ∧
    (bitMask pos).toNat = 2 ^ (pos.toNat % 64) ∧
    ∀ (m : Memory) (n : Nat), pos.toNat < n * 64 →
      (Memory.num m n).testBit pos.toNat = (Memory.read m (limbIndex pos)).getLsbD (limbOffset pos)

/-- R120, SETBIT; the last clause is the corner case about the number's value where R34 holds. -/
def Obligations.SetbitSetsOneBit : Prop :=
  ∀ (s : State) (p : Pend), s.pend = some p →
    (s.cap.toNat * 64 ≤ p.a0.toNat → TrapsPrecisely (exec .setbit s) .capacityViolation s) ∧
    (p.a0.toNat < s.cap.toNat * 64 →
      ∃ t, exec .setbit s = .next t ∧ CompletedFrom s t ∧
        (∀ i j, j < 64 → (Memory.read t.limbs i).getLsbD j =
          (decide (i = limbIndex p.a0 ∧ j = limbOffset p.a0) || (Memory.read s.limbs i).getLsbD j)) ∧
        t.len.toNat = max s.len.toNat (limbIndex p.a0 + 1) ∧ t.cap = s.cap ∧ t.res0 = s.res0 ∧ t.res1 = s.res1 ∧
        (s.tailZero → ∀ j, t.value.testBit j = (decide (j = p.a0.toNat) || s.value.testBit j)))

/-- R121, UNSETBIT. -/
def Obligations.UnsetbitClearsOneBit : Prop :=
  ∀ (s : State) (p : Pend), s.pend = some p →
    (s.len.toNat * 64 ≤ p.a0.toNat → TrapsPrecisely (exec .unsetbit s) .rangeViolation s) ∧
    (p.a0.toNat < s.len.toNat * 64 →
      ∃ t, exec .unsetbit s = .next t ∧ CompletedFrom s t ∧
        (∀ i j, j < 64 → (Memory.read t.limbs i).getLsbD j =
          (!decide (i = limbIndex p.a0 ∧ j = limbOffset p.a0) && (Memory.read s.limbs i).getLsbD j)) ∧
        t.len = s.len ∧ t.cap = s.cap ∧ t.res0 = s.res0 ∧ t.res1 = s.res1)

/-- R122, FORCEBIT; the value is checked before the position (R203). -/
def Obligations.ForcebitAssignsOneBit : Prop :=
  ∀ (s : State) (p : Pend), s.pend = some p →
    (1 < p.a1.toNat → TrapsPrecisely (exec .forcebit s) .operandViolation s) ∧
    (p.a1.toNat ≤ 1 → s.cap.toNat * 64 ≤ p.a0.toNat → TrapsPrecisely (exec .forcebit s) .capacityViolation s) ∧
    (p.a1.toNat ≤ 1 → p.a0.toNat < s.cap.toNat * 64 →
      ∃ t, exec .forcebit s = .next t ∧ CompletedFrom s t ∧
        (∀ i j, j < 64 → (Memory.read t.limbs i).getLsbD j =
          if i = limbIndex p.a0 ∧ j = limbOffset p.a0 then p.a1 == 1 else (Memory.read s.limbs i).getLsbD j) ∧
        t.len.toNat = max s.len.toNat (limbIndex p.a0 + 1) ∧ t.cap = s.cap ∧ t.res0 = s.res0 ∧ t.res1 = s.res1)

/-- R123, ISBITSET. -/
def Obligations.IsbitsetReadsOneBit : Prop :=
  ∀ (s : State) (p : Pend), s.pend = some p →
    (s.len.toNat * 64 ≤ p.a0.toNat → TrapsPrecisely (exec .isbitset s) .rangeViolation s) ∧
    (p.a0.toNat < s.len.toNat * 64 →
      ∃ t, exec .isbitset s = .next t ∧ CompletedFrom s t ∧
        t.res0 = (if (Memory.read s.limbs (limbIndex p.a0)).getLsbD (limbOffset p.a0) then 1 else 0) ∧
        t.len = s.len ∧ t.cap = s.cap ∧ LimbsSame s t ∧ t.res1 = s.res1)

/-- R124: the bit-access laws, each over two commands in a row on the states they leave. -/
def Obligations.BitAccessLaws : Prop :=
  ∀ (s : State) (pos : Word), s.lengthsOrdered →
    (pos.toNat < s.cap.toNat * 64 →
      ∃ t u, exec .setbit (s.latch .setbit pos 0) = .next t ∧ exec .isbitset (t.latch .isbitset pos 0) = .next u ∧
        u.res0 = 1 ∧ t.cap = s.cap ∧ s.len.toNat ≤ t.len.toNat ∧
        ∃ f, exec .forcebit (s.latch .forcebit pos 1) = .next f ∧ LimbsSame t f ∧ f.len = t.len ∧ f.cap = s.cap) ∧
    (pos.toNat < s.cap.toNat * 64 →
      ∃ f, exec .forcebit (s.latch .forcebit pos 0) = .next f ∧ f.cap = s.cap ∧ s.len.toNat ≤ f.len.toNat) ∧
    (pos.toNat < s.len.toNat * 64 →
      ∃ t u f, exec .unsetbit (s.latch .unsetbit pos 0) = .next t ∧
        exec .isbitset (t.latch .isbitset pos 0) = .next u ∧ u.res0 = 0 ∧ t.cap = s.cap ∧ t.len = s.len ∧
        exec .forcebit (s.latch .forcebit pos 0) = .next f ∧ LimbsSame t f ∧ f.len = t.len)

/-! ### Short division (42_short_division.md) -/

/-- R140, DIVMOD: each quotient limb, the remainder, the adjusted LEN, when INVARIANT_VIOLATION is raised, and the
frame. -/
def Obligations.DivmodDividesInPlace : Prop :=
  ∀ (s : State) (p : Pend), s.pend = some p →
    (p.a0 = 0 → TrapsPrecisely (exec .divmod s) .operandViolation s) ∧
    (p.a0 = 1 → ∃ t, exec .divmod s = .next t ∧ CompletedFrom s t ∧ t.res0 = 0 ∧ LimbsSame s t ∧ t.len = s.len ∧
      t.cap = s.cap ∧ t.res1 = s.res1) ∧
    (2 ≤ p.a0.toNat →
      ∃ t, exec .divmod s = .next t ∧
        t.res0.toNat = s.value % p.a0.toNat ∧
        (∀ i, Memory.read t.limbs i =
          if i < s.len.toNat then BitVec.ofNat 64 (s.value / p.a0.toNat / 2 ^ (64 * i)) else Memory.read s.limbs i) ∧
        t.len.toNat =
          (if 0 < s.len.toNat ∧ Memory.read t.limbs (s.len.toNat - 1) = 0 then s.len.toNat - 1 else s.len.toNat) ∧
        t.cap = s.cap ∧ t.res1 = s.res1 ∧
        (if 0 < t.len.toNat ∧ Memory.read t.limbs (t.len.toNat - 1) = 0 then FaultedFrom .invariantViolation s t
          else CompletedFrom s t))

/-- R141: the result law. -/
def Obligations.DivmodResultLaw : Prop :=
  ∀ (s t : State) (p : Pend), s.pend = some p → s.status.fault = false → exec .divmod s = .next t →
    t.status.fault = false →
    t.value = s.value / p.a0.toNat ∧ t.res0.toNat = s.value % p.a0.toNat ∧ t.res0.toNat < p.a0.toNat ∧
      s.value = t.value * p.a0.toNat + t.res0.toNat

/-- R142: exactly when INVARIANT_VIOLATION occurs; never on a normalised BigNum, which stays normalised; and the example
of a BigNum that is not normalised. -/
def Obligations.InvariantTrapExactlyWhen : Prop :=
  ∀ (s : State) (p : Pend), s.pend = some p → s.status.fault = false → 2 ≤ p.a0.toNat →
    ∃ t, exec .divmod s = .next t ∧
      (t.status = ⟨false, false, true, .invariantViolation⟩ ↔
        2 ≤ s.len.toNat ∧ s.value / p.a0.toNat < 2 ^ (64 * (s.len.toNat - 2))) ∧
      (t.status.fault = true → t.status.err = .invariantViolation) ∧
      (s.normalised = true → t.status.fault = false ∧ t.status.done = true ∧ t.normalised = true) ∧
      (s.len = 2 → Memory.read s.limbs 0 = 0 → Memory.read s.limbs 1 = 0 →
        t.len = 1 ∧ Memory.read t.limbs 0 = 0 ∧ t.status = ⟨false, false, true, .invariantViolation⟩)

/-- R144: repeated division of a normalised BigNum by d >= 2 takes as many DIVMODs as N has base-d digits, and its
remainders are those digits, least significant first. -/
def Obligations.RepeatedDivisionYieldsDigits : Prop :=
  ∀ (s : State) (d : Word), s.status.fault = false → s.normalised = true → 2 ≤ d.toNat →
    ∃ (k : Nat) (rs : List Word) (t : State),
      k = (Nat.digits d.toNat s.value).length ∧ divideTimes d k s = some (rs, t) ∧ t.len = 0 ∧ rs.length = k ∧
      (∀ r ∈ rs, r.toNat < d.toNat) ∧ s.value = digitSum d.toNat rs ∧
      (0 < s.value → ∃ r, rs.getLast? = some r ∧ r ≠ 0) ∧
      (∀ j rs' t', j < k → divideTimes d j s = some (rs', t') → t'.len ≠ 0)

/-- R233: after a CLEAN, DIVMOD by any divisor of at least 2 completes. -/
def Obligations.CleanThenDivmodCompletes : Prop :=
  ∀ (s : State) (p : Pend) (d : Word), s.pend = some p → s.status.fault = false → 2 ≤ d.toNat →
    ∃ t u, exec .clean s = .next t ∧ exec .divmod (t.latch .divmod d 0) = .next u ∧ u.status.fault = false ∧
      u.status.done = true ∧ u.normalised = true ∧ u.value = s.value / d.toNat ∧ u.res0.toNat = s.value % d.toNat

/-- R15, R43: LEN is 0 exactly when a normalised BigNum is zero. -/
def Obligations.NormalisedIsZeroExactlyAtLengthZero : Prop :=
  ∀ s : State, s.normalised = true → (s.len = 0 ↔ s.value = 0)

/-! ### Modular inverse (43_modular_inverse.md) -/

/-- R165 (c), (d) at both widths: `InvOdd_W` of an odd word never raises, and gives the one inverse, whose own inverse is
the word. -/
def Obligations.InvOddGivesTheUniqueInverse : Prop :=
  ∀ w, w = 32 ∨ w = 64 → ∀ b : BitVec w, b.toNat % 2 = 1 →
    ∃ y, invOdd b = some y ∧ y * b = 1 ∧ (∀ z, z * b = 1 → z = y) ∧ invOdd y = some b

/-- R161, INVODD.W32. -/
def Obligations.InvoddW32GivesInverse : Prop :=
  ∀ (s : State) (p : Pend), s.pend = some p →
    (2 ^ 32 ≤ p.a0.toNat ∨ p.a0.toNat % 2 = 0 → TrapsPrecisely (exec .invoddW32 s) .operandViolation s) ∧
    (p.a0.toNat < 2 ^ 32 → p.a0.toNat % 2 = 1 →
      ∃ t, exec .invoddW32 s = .next t ∧ CompletedFrom s t ∧ t.res0.toNat < 2 ^ 32 ∧
        (t.res0.toNat * p.a0.toNat) % 2 ^ 32 = 1 ∧ t.res1 = 0 ∧ t.len = s.len ∧ t.cap = s.cap ∧ LimbsSame s t)

/-- R162, INVODD.W64. -/
def Obligations.InvoddW64GivesInverse : Prop :=
  ∀ (s : State) (p : Pend), s.pend = some p →
    (p.a0.toNat % 2 = 0 → TrapsPrecisely (exec .invoddW64 s) .operandViolation s) ∧
    (p.a0.toNat % 2 = 1 →
      ∃ t, exec .invoddW64 s = .next t ∧ CompletedFrom s t ∧
        (t.res0.toNat * p.a0.toNat) % 2 ^ 64 = 1 ∧ t.res1 = 0 ∧ t.len = s.len ∧ t.cap = s.cap ∧ LimbsSame s t)

/-- R163, MODINV.W32. -/
def Obligations.ModinvW32GivesOddPartInverse : Prop :=
  ∀ (s : State) (p : Pend), s.pend = some p →
    (2 ^ 32 ≤ p.a0.toNat ∨ p.a0 = 0 → TrapsPrecisely (exec .modinvW32 s) .operandViolation s) ∧
    (p.a0.toNat < 2 ^ 32 → p.a0 ≠ 0 →
      ∃ t, exec .modinvW32 s = .next t ∧ CompletedFrom s t ∧ t.res1.toNat < 32 ∧
        2 ^ t.res1.toNat ∣ p.a0.toNat ∧ p.a0.toNat / 2 ^ t.res1.toNat % 2 = 1 ∧ t.res0.toNat < 2 ^ 32 ∧
        (t.res0.toNat * (p.a0.toNat / 2 ^ t.res1.toNat)) % 2 ^ 32 = 1 ∧
        t.len = s.len ∧ t.cap = s.cap ∧ LimbsSame s t)

/-- R164, MODINV.W64. -/
def Obligations.ModinvW64GivesOddPartInverse : Prop :=
  ∀ (s : State) (p : Pend), s.pend = some p →
    (p.a0 = 0 → TrapsPrecisely (exec .modinvW64 s) .operandViolation s) ∧
    (p.a0 ≠ 0 →
      ∃ t, exec .modinvW64 s = .next t ∧ CompletedFrom s t ∧ t.res1.toNat < 64 ∧
        2 ^ t.res1.toNat ∣ p.a0.toNat ∧ p.a0.toNat / 2 ^ t.res1.toNat % 2 = 1 ∧
        (t.res0.toNat * (p.a0.toNat / 2 ^ t.res1.toNat)) % 2 ^ 64 = 1 ∧
        t.len = s.len ∧ t.cap = s.cap ∧ LimbsSame s t)

/-! ### The host's program (30_encoding.md R79, R80) and use requirements -/

/-- R232: with no storage allocated, as after reset, every limb and bit command faults, and the other commands need
none. -/
def Obligations.WithoutStorageLimbCommandsTrap : Prop :=
  ∀ (s : State) (p : Pend), s.pend = some p → s.cap = 0 → s.len = 0 →
    TrapsPrecisely (exec .setbit s) .capacityViolation s ∧
    (p.a1.toNat ≤ 1 → TrapsPrecisely (exec .forcebit s) .capacityViolation s) ∧
    TrapsPrecisely (exec .rdlimb s) .capacityViolation s ∧ TrapsPrecisely (exec .wrlimb s) .capacityViolation s ∧
    TrapsPrecisely (exec .unsetbit s) .rangeViolation s ∧ TrapsPrecisely (exec .isbitset s) .rangeViolation s ∧
    (∃ t, exec .shrink s = .next t ∧ CompletedFrom s t ∧ t.cap = 0) ∧
    (∃ t, exec .clean s = .next t ∧ CompletedFrom s t ∧ t.len = 0) ∧
    (p.a0 ≠ 0 → ∃ t, exec .divmod s = .next t ∧ CompletedFrom s t ∧ t.len = 0 ∧ t.res0 = 0)

/-- R79: what each statement of the notation does on the host's turn, the bus accesses it stands for included.
`wait` reads STATUS into `t`, stays while BUSY = 1 and goes on otherwise.
That each statement is one turn, and how the position moves, is the model's choice (log entry 9). -/
def Obligations.HostStatementsDoAsWritten : Prop :=
  ∀ (s : State) (r : HostReg) (i : Instr) (hv : HVar) (l : Nat) (v : HostVal),
    hostStmt (.wr r v) s = hostStmt (.memWrite (Config.base + r.off) 8 v) s ∧
    hostStmt (.cmd i) s = hostStmt (.memWrite (Config.base + 0x00) 8 (.lit (encode i))) s ∧
    hostStmt (.rd hv r) s = hostStmt (.memRead hv (Config.base + r.off) 8) s ∧
    hostStmt (.wr r v) s = .next (writeReg r (v.get s.host) s).advance ∧
    hostStmt (.cmd i) s = .next (writeReg .cmd (encode i) s).advance ∧
    (∃ t, hostStmt .wait s = .next t ∧ BlockSame s t ∧ Memory.read t.host.vars tVar = s.status.word ∧
      t.host.pos = (if s.status.busy then s.host.pos else s.host.pos + 1)) ∧
    (∃ t, hostStmt (.rd hv r) s = .next t ∧ BlockSame s t ∧ Memory.read t.host.vars hv = (readReg r s).1 ∧
      t.host.pos = s.host.pos + 1) ∧
    hostStmt (.label l) s = .next s.advance ∧
    (∀ k, labelPos l s.host.prog = some k → s.host.prog[k]? = some (.label l) ∧
      jumpTo l s = .next { s with host := { s.host with pos := k } }) ∧
    hostStmt (.bnez hv l) s = (if Memory.read s.host.vars hv ≠ 0 then jumpTo l s else .next s.advance) ∧
    hostStmt (.beqz hv l) s = (if Memory.read s.host.vars hv = 0 then jumpTo l s else .next s.advance) ∧
    (∃ t, hostStmt (.push v) s = .next t ∧ BlockSame s t ∧ t.host.out = s.host.out ++ [v.get s.host] ∧
      t.host.pos = s.host.pos + 1) ∧
    (∃ t, hostStmt .halt s = .next t ∧ BlockSame s t ∧ hostTurn t = .next t)

/-- R80: the expansions of the pseudo-instructions, and what the second half of `checkok` does. -/
def Obligations.PseudoInstructionsExpand : Prop :=
  ∀ (s : State) (hv hs : HVar) (a b : HostVal),
    pseudoNew a = [.wr .arg0 a, .cmd .new, .wait] ∧ pseudoResize a = [.wr .arg0 a, .cmd .resize, .wait] ∧
    pseudoShrink = [.cmd .shrink, .wait] ∧ pseudoClean = [.cmd .clean, .wait] ∧
    pseudoRdlimb hv a = [.wr .arg0 a, .cmd .rdlimb, .wait, .rd hv .res0] ∧
    pseudoWrlimb a b = [.wr .arg0 a, .wr .arg1 b, .cmd .wrlimb, .wait] ∧
    pseudoSetbit a = [.wr .arg0 a, .cmd .setbit, .wait] ∧ pseudoUnsetbit a = [.wr .arg0 a, .cmd .unsetbit, .wait] ∧
    pseudoForcebit a b = [.wr .arg0 a, .wr .arg1 b, .cmd .forcebit, .wait] ∧
    pseudoIsbitset hv a = [.wr .arg0 a, .cmd .isbitset, .wait, .rd hv .res0] ∧
    pseudoDivmod hv a = [.wr .arg0 a, .cmd .divmod, .wait, .rd hv .res0] ∧
    pseudoInvoddW32 hv a = [.wr .arg0 a, .cmd .invoddW32, .wait, .rd hv .res0] ∧
    pseudoInvoddW64 hv a = [.wr .arg0 a, .cmd .invoddW64, .wait, .rd hv .res0] ∧
    pseudoModinvW32 hv hs a = [.wr .arg0 a, .cmd .modinvW32, .wait, .rd hv .res0, .rd hs .res1] ∧
    pseudoModinvW64 hv hs a = [.wr .arg0 a, .cmd .modinvW64, .wait, .rd hv .res0, .rd hs .res1] ∧
    pseudoCheckok = [.rd tVar .status, .stopIfFault tVar] ∧
    (∃ t, hostStmt (.stopIfFault tVar) s = .next t ∧ BlockSame s t ∧
      (if (Memory.read s.host.vars tVar).getLsbD 2 then t.host.mode = .faultReport ∧ hostTurn t = .next t
        else t.host.mode = s.host.mode ∧ t.host.pos = s.host.pos + 1))
end

