-- ==== Sys2Proof/Laws/State.lean ====
section
/-! SUPPORT. One lemma per field per named update of State, true by rfl, so that no proof unfolds a record update. -/

namespace Sys2Proof.Machine

/-! ### `State.completed` -/

@[simp] theorem State.completed_cmd (s : State) : s.completed.cmd = s.cmd := rfl
@[simp] theorem State.completed_arg0 (s : State) : s.completed.arg0 = s.arg0 := rfl
@[simp] theorem State.completed_arg1 (s : State) : s.completed.arg1 = s.arg1 := rfl
@[simp] theorem State.completed_res0 (s : State) : s.completed.res0 = s.res0 := rfl
@[simp] theorem State.completed_res1 (s : State) : s.completed.res1 = s.res1 := rfl
@[simp] theorem State.completed_status (s : State) : s.completed.status = s.status.completed := rfl
@[simp] theorem State.completed_len (s : State) : s.completed.len = s.len := rfl
@[simp] theorem State.completed_cap (s : State) : s.completed.cap = s.cap := rfl
@[simp] theorem State.completed_param (s : State) : s.completed.param = s.param := rfl
@[simp] theorem State.completed_limbs (s : State) : s.completed.limbs = s.limbs := rfl
@[simp] theorem State.completed_pend (s : State) : s.completed.pend = none := rfl
@[simp] theorem State.completed_work (s : State) : s.completed.work = drawWork s.fresh := rfl
@[simp] theorem State.completed_fresh (s : State) : s.completed.fresh = s.fresh + 1 := rfl
@[simp] theorem State.completed_host (s : State) : s.completed.host = s.host := rfl
@[simp] theorem State.completed_schedule (s : State) : s.completed.schedule = s.schedule := rfl
@[simp] theorem State.completed_latency (s : State) : s.completed.latency = s.latency := rfl

@[simp] theorem State.completed_capMax (s : State) : s.completed.capMax = s.capMax := rfl

/-! ### `State.faulted` -/

@[simp] theorem State.faulted_cmd (code : FaultCode) (s : State) : (s.faulted code).cmd = s.cmd := rfl
@[simp] theorem State.faulted_arg0 (code : FaultCode) (s : State) : (s.faulted code).arg0 = s.arg0 := rfl
@[simp] theorem State.faulted_arg1 (code : FaultCode) (s : State) : (s.faulted code).arg1 = s.arg1 := rfl
@[simp] theorem State.faulted_res0 (code : FaultCode) (s : State) : (s.faulted code).res0 = s.res0 := rfl
@[simp] theorem State.faulted_res1 (code : FaultCode) (s : State) : (s.faulted code).res1 = s.res1 := rfl
@[simp] theorem State.faulted_status (code : FaultCode) (s : State) : (s.faulted code).status = Status.faulted code := rfl
@[simp] theorem State.faulted_len (code : FaultCode) (s : State) : (s.faulted code).len = s.len := rfl
@[simp] theorem State.faulted_cap (code : FaultCode) (s : State) : (s.faulted code).cap = s.cap := rfl
@[simp] theorem State.faulted_param (code : FaultCode) (s : State) : (s.faulted code).param = s.param := rfl
@[simp] theorem State.faulted_limbs (code : FaultCode) (s : State) : (s.faulted code).limbs = s.limbs := rfl
@[simp] theorem State.faulted_pend (code : FaultCode) (s : State) : (s.faulted code).pend = none := rfl
@[simp] theorem State.faulted_work (code : FaultCode) (s : State) : (s.faulted code).work = drawWork s.fresh := rfl
@[simp] theorem State.faulted_fresh (code : FaultCode) (s : State) : (s.faulted code).fresh = s.fresh + 1 := rfl
@[simp] theorem State.faulted_host (code : FaultCode) (s : State) : (s.faulted code).host = s.host := rfl
@[simp] theorem State.faulted_schedule (code : FaultCode) (s : State) : (s.faulted code).schedule = s.schedule := rfl
@[simp] theorem State.faulted_latency (code : FaultCode) (s : State) : (s.faulted code).latency = s.latency := rfl

@[simp] theorem State.faulted_capMax (code : FaultCode) (s : State) : (s.faulted code).capMax = s.capMax := rfl

/-! ### `State.collided` -/

@[simp] theorem State.collided_cmd (s : State) : s.collided.cmd = s.cmd := rfl
@[simp] theorem State.collided_arg0 (s : State) : s.collided.arg0 = s.arg0 := rfl
@[simp] theorem State.collided_arg1 (s : State) : s.collided.arg1 = s.arg1 := rfl
@[simp] theorem State.collided_res0 (s : State) : s.collided.res0 = Config.freeWord .collisionRes0 s.fresh := rfl
@[simp] theorem State.collided_res1 (s : State) : s.collided.res1 = Config.freeWord .collisionRes1 s.fresh := rfl
@[simp] theorem State.collided_status (s : State) : s.collided.status = Status.faulted .busyCollision := rfl
@[simp] theorem State.collided_len (s : State) : s.collided.len = Config.freeWord .collisionLen s.fresh := rfl
@[simp] theorem State.collided_cap (s : State) : s.collided.cap = Config.freeWord .collisionCap s.fresh := rfl
@[simp] theorem State.collided_param (s : State) : s.collided.param = s.param := rfl
@[simp] theorem State.collided_limbs (s : State) : s.collided.limbs = drawLimbs s.capMax s.fresh := rfl
@[simp] theorem State.collided_pend (s : State) : s.collided.pend = none := rfl
@[simp] theorem State.collided_work (s : State) : s.collided.work = drawWork s.fresh := rfl
@[simp] theorem State.collided_fresh (s : State) : s.collided.fresh = s.fresh + 1 := rfl
@[simp] theorem State.collided_host (s : State) : s.collided.host = s.host := rfl
@[simp] theorem State.collided_schedule (s : State) : s.collided.schedule = s.schedule := rfl
@[simp] theorem State.collided_latency (s : State) : s.collided.latency = s.latency := rfl

@[simp] theorem State.collided_capMax (s : State) : s.collided.capMax = s.capMax := rfl

/-! ### `State.resetBlock` -/

@[simp] theorem State.resetBlock_cmd (s : State) : s.resetBlock.cmd = 0 := rfl
@[simp] theorem State.resetBlock_arg0 (s : State) : s.resetBlock.arg0 = 0 := rfl
@[simp] theorem State.resetBlock_arg1 (s : State) : s.resetBlock.arg1 = 0 := rfl
@[simp] theorem State.resetBlock_res0 (s : State) : s.resetBlock.res0 = 0 := rfl
@[simp] theorem State.resetBlock_res1 (s : State) : s.resetBlock.res1 = 0 := rfl
@[simp] theorem State.resetBlock_status (s : State) : s.resetBlock.status = Status.cleared := rfl
@[simp] theorem State.resetBlock_len (s : State) : s.resetBlock.len = 0 := rfl
@[simp] theorem State.resetBlock_cap (s : State) : s.resetBlock.cap = 0 := rfl
@[simp] theorem State.resetBlock_param (s : State) : s.resetBlock.param = s.param := rfl
@[simp] theorem State.resetBlock_limbs (s : State) : s.resetBlock.limbs = drawLimbs s.capMax s.fresh := rfl
@[simp] theorem State.resetBlock_pend (s : State) : s.resetBlock.pend = none := rfl
@[simp] theorem State.resetBlock_work (s : State) : s.resetBlock.work = drawWork s.fresh := rfl
@[simp] theorem State.resetBlock_fresh (s : State) : s.resetBlock.fresh = s.fresh + 1 := rfl
@[simp] theorem State.resetBlock_host (s : State) : s.resetBlock.host = s.host := rfl
@[simp] theorem State.resetBlock_schedule (s : State) : s.resetBlock.schedule = s.schedule := rfl
@[simp] theorem State.resetBlock_latency (s : State) : s.resetBlock.latency = s.latency := rfl

@[simp] theorem State.resetBlock_capMax (s : State) : s.resetBlock.capMax = s.capMax := rfl

/-! ### `State.issued` -/

@[simp] theorem State.issued_cmd (v : Word) (s : State) : (s.issued v).cmd = v := rfl
@[simp] theorem State.issued_arg0 (v : Word) (s : State) : (s.issued v).arg0 = s.arg0 := rfl
@[simp] theorem State.issued_arg1 (v : Word) (s : State) : (s.issued v).arg1 = s.arg1 := rfl
@[simp] theorem State.issued_res0 (v : Word) (s : State) : (s.issued v).res0 = s.res0 := rfl
@[simp] theorem State.issued_res1 (v : Word) (s : State) : (s.issued v).res1 = s.res1 := rfl
@[simp] theorem State.issued_status (v : Word) (s : State) : (s.issued v).status = s.status.issued := rfl
@[simp] theorem State.issued_len (v : Word) (s : State) : (s.issued v).len = s.len := rfl
@[simp] theorem State.issued_cap (v : Word) (s : State) : (s.issued v).cap = s.cap := rfl
@[simp] theorem State.issued_param (v : Word) (s : State) : (s.issued v).param = s.param := rfl
@[simp] theorem State.issued_limbs (v : Word) (s : State) : (s.issued v).limbs = s.limbs := rfl
@[simp] theorem State.issued_pend (v : Word) (s : State) : (s.issued v).pend = some ⟨v, s.arg0, s.arg1⟩ := rfl
@[simp] theorem State.issued_work (v : Word) (s : State) : (s.issued v).work = s.work := rfl
@[simp] theorem State.issued_fresh (v : Word) (s : State) : (s.issued v).fresh = s.fresh := rfl
@[simp] theorem State.issued_host (v : Word) (s : State) : (s.issued v).host = s.host := rfl
@[simp] theorem State.issued_schedule (v : Word) (s : State) : (s.issued v).schedule = s.schedule := rfl
@[simp] theorem State.issued_latency (v : Word) (s : State) : (s.issued v).latency = Config.freeLatency s.fresh (s.latencyInput v) := rfl

@[simp] theorem State.issued_capMax (v : Word) (s : State) : (s.issued v).capMax = s.capMax := rfl

/-! ### `State.popTurn` -/

@[simp] theorem State.popTurn_cmd (s : State) : s.popTurn.cmd = s.cmd := rfl
@[simp] theorem State.popTurn_arg0 (s : State) : s.popTurn.arg0 = s.arg0 := rfl
@[simp] theorem State.popTurn_arg1 (s : State) : s.popTurn.arg1 = s.arg1 := rfl
@[simp] theorem State.popTurn_res0 (s : State) : s.popTurn.res0 = s.res0 := rfl
@[simp] theorem State.popTurn_res1 (s : State) : s.popTurn.res1 = s.res1 := rfl
@[simp] theorem State.popTurn_status (s : State) : s.popTurn.status = s.status := rfl
@[simp] theorem State.popTurn_len (s : State) : s.popTurn.len = s.len := rfl
@[simp] theorem State.popTurn_cap (s : State) : s.popTurn.cap = s.cap := rfl
@[simp] theorem State.popTurn_param (s : State) : s.popTurn.param = s.param := rfl
@[simp] theorem State.popTurn_limbs (s : State) : s.popTurn.limbs = s.limbs := rfl
@[simp] theorem State.popTurn_pend (s : State) : s.popTurn.pend = s.pend := rfl
@[simp] theorem State.popTurn_work (s : State) : s.popTurn.work = s.work := rfl
@[simp] theorem State.popTurn_fresh (s : State) : s.popTurn.fresh = s.fresh := rfl
@[simp] theorem State.popTurn_host (s : State) : s.popTurn.host = s.host := rfl
@[simp] theorem State.popTurn_schedule (s : State) : s.popTurn.schedule = s.schedule.tail := rfl
@[simp] theorem State.popTurn_latency (s : State) : s.popTurn.latency = if s.turnCounts then s.latency - 1 else s.latency := rfl

@[simp] theorem State.popTurn_capMax (s : State) : s.popTurn.capMax = s.capMax := rfl

/-! ### `State.latch` -/

@[simp] theorem State.latch_cmd (i : Instr) (a0 a1 : Word) (s : State) : (s.latch i a0 a1).cmd = s.cmd := rfl
@[simp] theorem State.latch_arg0 (i : Instr) (a0 a1 : Word) (s : State) : (s.latch i a0 a1).arg0 = s.arg0 := rfl
@[simp] theorem State.latch_arg1 (i : Instr) (a0 a1 : Word) (s : State) : (s.latch i a0 a1).arg1 = s.arg1 := rfl
@[simp] theorem State.latch_res0 (i : Instr) (a0 a1 : Word) (s : State) : (s.latch i a0 a1).res0 = s.res0 := rfl
@[simp] theorem State.latch_res1 (i : Instr) (a0 a1 : Word) (s : State) : (s.latch i a0 a1).res1 = s.res1 := rfl
@[simp] theorem State.latch_status (i : Instr) (a0 a1 : Word) (s : State) : (s.latch i a0 a1).status = s.status := rfl
@[simp] theorem State.latch_len (i : Instr) (a0 a1 : Word) (s : State) : (s.latch i a0 a1).len = s.len := rfl
@[simp] theorem State.latch_cap (i : Instr) (a0 a1 : Word) (s : State) : (s.latch i a0 a1).cap = s.cap := rfl
@[simp] theorem State.latch_param (i : Instr) (a0 a1 : Word) (s : State) : (s.latch i a0 a1).param = s.param := rfl
@[simp] theorem State.latch_limbs (i : Instr) (a0 a1 : Word) (s : State) : (s.latch i a0 a1).limbs = s.limbs := rfl
@[simp] theorem State.latch_pend (i : Instr) (a0 a1 : Word) (s : State) : (s.latch i a0 a1).pend = some ⟨encode i, a0, a1⟩ := rfl
@[simp] theorem State.latch_work (i : Instr) (a0 a1 : Word) (s : State) : (s.latch i a0 a1).work = s.work := rfl
@[simp] theorem State.latch_fresh (i : Instr) (a0 a1 : Word) (s : State) : (s.latch i a0 a1).fresh = s.fresh := rfl
@[simp] theorem State.latch_host (i : Instr) (a0 a1 : Word) (s : State) : (s.latch i a0 a1).host = s.host := rfl
@[simp] theorem State.latch_schedule (i : Instr) (a0 a1 : Word) (s : State) : (s.latch i a0 a1).schedule = s.schedule := rfl
@[simp] theorem State.latch_latency (i : Instr) (a0 a1 : Word) (s : State) : (s.latch i a0 a1).latency = s.latency := rfl

@[simp] theorem State.latch_capMax (i : Instr) (a0 a1 : Word) (s : State) : (s.latch i a0 a1).capMax = s.capMax := rfl

/-! ### `State.advance` -/

@[simp] theorem State.advance_cmd (s : State) : s.advance.cmd = s.cmd := rfl
@[simp] theorem State.advance_arg0 (s : State) : s.advance.arg0 = s.arg0 := rfl
@[simp] theorem State.advance_arg1 (s : State) : s.advance.arg1 = s.arg1 := rfl
@[simp] theorem State.advance_res0 (s : State) : s.advance.res0 = s.res0 := rfl
@[simp] theorem State.advance_res1 (s : State) : s.advance.res1 = s.res1 := rfl
@[simp] theorem State.advance_status (s : State) : s.advance.status = s.status := rfl
@[simp] theorem State.advance_len (s : State) : s.advance.len = s.len := rfl
@[simp] theorem State.advance_cap (s : State) : s.advance.cap = s.cap := rfl
@[simp] theorem State.advance_param (s : State) : s.advance.param = s.param := rfl
@[simp] theorem State.advance_limbs (s : State) : s.advance.limbs = s.limbs := rfl
@[simp] theorem State.advance_pend (s : State) : s.advance.pend = s.pend := rfl
@[simp] theorem State.advance_work (s : State) : s.advance.work = s.work := rfl
@[simp] theorem State.advance_fresh (s : State) : s.advance.fresh = s.fresh := rfl
@[simp] theorem State.advance_schedule (s : State) : s.advance.schedule = s.schedule := rfl
@[simp] theorem State.advance_latency (s : State) : s.advance.latency = s.latency := rfl
@[simp] theorem State.advance_capMax (s : State) : s.advance.capMax = s.capMax := rfl
@[simp] theorem State.advance_host_prog (s : State) : s.advance.host.prog = s.host.prog := rfl
@[simp] theorem State.advance_host_pos (s : State) : s.advance.host.pos = s.host.pos + 1 := rfl
@[simp] theorem State.advance_host_vars (s : State) : s.advance.host.vars = s.host.vars := rfl
@[simp] theorem State.advance_host_out (s : State) : s.advance.host.out = s.host.out := rfl
@[simp] theorem State.advance_host_mode (s : State) : s.advance.host.mode = s.host.mode := rfl

/-! ### `State.setVar` -/

@[simp] theorem State.setVar_cmd (hv : HVar) (w : Word) (s : State) : (s.setVar hv w).cmd = s.cmd := rfl
@[simp] theorem State.setVar_arg0 (hv : HVar) (w : Word) (s : State) : (s.setVar hv w).arg0 = s.arg0 := rfl
@[simp] theorem State.setVar_arg1 (hv : HVar) (w : Word) (s : State) : (s.setVar hv w).arg1 = s.arg1 := rfl
@[simp] theorem State.setVar_res0 (hv : HVar) (w : Word) (s : State) : (s.setVar hv w).res0 = s.res0 := rfl
@[simp] theorem State.setVar_res1 (hv : HVar) (w : Word) (s : State) : (s.setVar hv w).res1 = s.res1 := rfl
@[simp] theorem State.setVar_status (hv : HVar) (w : Word) (s : State) : (s.setVar hv w).status = s.status := rfl
@[simp] theorem State.setVar_len (hv : HVar) (w : Word) (s : State) : (s.setVar hv w).len = s.len := rfl
@[simp] theorem State.setVar_cap (hv : HVar) (w : Word) (s : State) : (s.setVar hv w).cap = s.cap := rfl
@[simp] theorem State.setVar_param (hv : HVar) (w : Word) (s : State) : (s.setVar hv w).param = s.param := rfl
@[simp] theorem State.setVar_limbs (hv : HVar) (w : Word) (s : State) : (s.setVar hv w).limbs = s.limbs := rfl
@[simp] theorem State.setVar_pend (hv : HVar) (w : Word) (s : State) : (s.setVar hv w).pend = s.pend := rfl
@[simp] theorem State.setVar_work (hv : HVar) (w : Word) (s : State) : (s.setVar hv w).work = s.work := rfl
@[simp] theorem State.setVar_fresh (hv : HVar) (w : Word) (s : State) : (s.setVar hv w).fresh = s.fresh := rfl
@[simp] theorem State.setVar_schedule (hv : HVar) (w : Word) (s : State) : (s.setVar hv w).schedule = s.schedule := rfl
@[simp] theorem State.setVar_latency (hv : HVar) (w : Word) (s : State) : (s.setVar hv w).latency = s.latency := rfl
@[simp] theorem State.setVar_capMax (hv : HVar) (w : Word) (s : State) : (s.setVar hv w).capMax = s.capMax := rfl
@[simp] theorem State.setVar_host_prog (hv : HVar) (w : Word) (s : State) : (s.setVar hv w).host.prog = s.host.prog := rfl
@[simp] theorem State.setVar_host_pos (hv : HVar) (w : Word) (s : State) : (s.setVar hv w).host.pos = s.host.pos := rfl
@[simp] theorem State.setVar_host_vars (hv : HVar) (w : Word) (s : State) : (s.setVar hv w).host.vars = Memory.write s.host.vars hv w := rfl
@[simp] theorem State.setVar_host_out (hv : HVar) (w : Word) (s : State) : (s.setVar hv w).host.out = s.host.out := rfl
@[simp] theorem State.setVar_host_mode (hv : HVar) (w : Word) (s : State) : (s.setVar hv w).host.mode = s.host.mode := rfl

@[simp] theorem Status.issued_busy (st : Status) : st.issued.busy = true := rfl
@[simp] theorem Status.issued_done (st : Status) : st.issued.done = false := rfl
@[simp] theorem Status.issued_fault (st : Status) : st.issued.fault = st.fault := rfl
@[simp] theorem Status.issued_err (st : Status) : st.issued.err = st.err := rfl
@[simp] theorem Status.completed_busy (st : Status) : st.completed.busy = false := rfl
@[simp] theorem Status.completed_done (st : Status) : st.completed.done = true := rfl
@[simp] theorem Status.completed_fault (st : Status) : st.completed.fault = st.fault := rfl
@[simp] theorem Status.completed_err (st : Status) : st.completed.err = st.err := rfl
@[simp] theorem Status.faulted_busy (code : FaultCode) : (Status.faulted code).busy = false := rfl
@[simp] theorem Status.faulted_done (code : FaultCode) : (Status.faulted code).done = false := rfl
@[simp] theorem Status.faulted_fault (code : FaultCode) : (Status.faulted code).fault = true := rfl
@[simp] theorem Status.faulted_err (code : FaultCode) : (Status.faulted code).err = code := rfl
@[simp] theorem Status.cleared_busy : Status.cleared.busy = false := rfl
@[simp] theorem Status.cleared_done : Status.cleared.done = false := rfl
@[simp] theorem Status.cleared_fault : Status.cleared.fault = false := rfl
@[simp] theorem Status.cleared_err : Status.cleared.err = .none := rfl

end Sys2Proof.Machine
end

