-- ==== Sys2Proof/Laws/Exec.lean ====
section
/-! SUPPORT. What every command can do, said once: the update of the data fields, completion, fault entry, and the inversion of `exec`. -/

namespace Sys2Proof.Machine

/-- With a command in flight, the rule runs on its latched operands. -/
theorem withOperands_some {s : State} {p : Pend} (h : s.pend = some p) (f) : withOperands s f = f p.a0 p.a1 := by
  simp [withOperands, h]

/-- `u` is `s` but for L, LEN, CAP, RES0 and RES1: what a command writes before it ends. -/
structure DataUpd (s u : State) : Prop where
  cmd : u.cmd = s.cmd
  arg0 : u.arg0 = s.arg0
  arg1 : u.arg1 = s.arg1
  status : u.status = s.status
  param : u.param = s.param
  pend : u.pend = s.pend
  work : u.work = s.work
  fresh : u.fresh = s.fresh
  host : u.host = s.host
  schedule : u.schedule = s.schedule
  latency : u.latency = s.latency

theorem DataUpd.refl (s : State) : DataUpd s s := ⟨rfl,rfl,rfl,rfl,rfl,rfl,rfl,rfl,rfl,rfl,rfl⟩

theorem dataUpd_data (s : State) (l n c r0 r1) :
    DataUpd s { s with limbs := l, len := n, cap := c, res0 := r0, res1 := r1 } :=
  ⟨rfl,rfl,rfl,rfl,rfl,rfl,rfl,rfl,rfl,rfl,rfl⟩

/-- Completion after a data update (R37). -/
theorem completedFrom {s u : State} (h : DataUpd s u) : CompletedFrom s u.completed where
  cmd := h.cmd
  arg0 := h.arg0
  arg1 := h.arg1
  param := h.param
  host := h.host
  schedule := h.schedule
  latency := h.latency
  status := by simp [Status.completed, h.status]
  pend := rfl

/-- Fault entry after a data update (R205). -/
theorem faultedFrom {s u : State} (h : DataUpd s u) (c : FaultCode) : FaultedFrom c s (u.faulted c) where
  cmd := h.cmd
  arg0 := h.arg0
  arg1 := h.arg1
  param := h.param
  host := h.host
  schedule := h.schedule
  latency := h.latency
  status := rfl
  pend := rfl

theorem completedFrom_data (s : State) (l n c r0 r1) :
    CompletedFrom s ({ s with limbs := l, len := n, cap := c, res0 := r0, res1 := r1 } : State).completed :=
  completedFrom (dataUpd_data s l n c r0 r1)

/-- A fault raised before any effect is precise (R205). -/
theorem raiseFault_precise (s : State) (c : FaultCode) : TrapsPrecisely (raiseFault c s) c s :=
  ⟨_, rfl, faultedFrom (.refl s) c, fun _ => rfl, rfl, rfl, rfl, rfl⟩

theorem dataSame_refl (s : State) : DataSame s s := ⟨fun _ => rfl, rfl, rfl, rfl, rfl⟩

theorem blockSame_refl (s : State) : BlockSame s s := ⟨⟨fun _ => rfl, rfl, rfl, rfl, rfl⟩, rfl, rfl, rfl, rfl, rfl, rfl⟩

theorem two_le_iff {a : Word} : 2 ≤ a.toNat ↔ a ≠ 0 ∧ a ≠ 1 := by
  constructor
  · intro h; constructor <;> rintro rfl <;> simp at h
  · rintro ⟨h0, h1⟩
    have := mt (fun e => BitVec.eq_of_toNat_eq (y := 0#64) e) h0
    have := mt (fun e => BitVec.eq_of_toNat_eq (y := 1#64) e) h1
    simp at *; omega

/-- Everything a command can do: it was latched, it wrote only data, and it completed, trapped precisely with one of its codes, or was DIVMOD leaving its writes. -/
theorem exec_cases {i : Instr} {s t : State} (h : exec i s = .next t) :
   ∃ p u, s.pend = some p ∧ DataUpd s u ∧ (t = u.completed ∨
     (u = s ∧ ∃ c, t = s.faulted c ∧
        (c = .capacityViolation ∧ i ∈ [Instr.setbit, .forcebit, .rdlimb, .wrlimb, .new, .resize] ∨
         c = .rangeViolation ∧ i ∈ [Instr.unsetbit, .isbitset] ∨
         c = .operandViolation ∧ i ∈ [Instr.divmod, .invoddW32, .invoddW64, .modinvW32, .modinvW64, .forcebit] ∨
         c = .invariantViolation ∧ i ∈ [Instr.invoddW32, .invoddW64, .modinvW32, .modinvW64] )) ∨
     (i = .divmod ∧ 2 ≤ p.a0.toNat ∧ u = divided p.a0.toNat s ∧ t = u.faulted .invariantViolation)) := by
  cases hp : s.pend with
  | none => cases i <;> simp [exec, execNew, execResize, execShrink, execClean, execRdlimb, execWrlimb, execSetbit, execUnsetbit, execForcebit, execIsbitset, execDivmod, execModinvW32, execModinvW64, execInvoddW32, execInvoddW64, withOperands, hp] at h
  | some p =>
    have D : ∀ l n c r0 r1, DataUpd s {s with limbs := l, len := n, cap := c, res0 := r0, res1 := r1} := fun _ _ _ _ _ => ⟨rfl,rfl,rfl,rfl,rfl,rfl,rfl,rfl,rfl,rfl,rfl⟩
    have F : ∀ {w} (b : BitVec w) k s', finishInverse b k s = .next s' → (∃ r0 r1, s' = ({s with res0 := r0, res1 := r1} : State).completed) ∨ s' = s.faulted .invariantViolation := by
      intro w b k s' h
      unfold finishInverse at h
      split at h
      · exact .inl ⟨_, _, (Host.Outcome.next.inj h).symm⟩
      · exact .inr (Host.Outcome.next.inj h).symm
    have I : ∀ {w} (b : BitVec w) s', (inverseOfOdd b s = .next s' ∨ inverseOfOddPart b s = .next s') → (∃ r0 r1, s' = ({s with res0 := r0, res1 := r1} : State).completed) ∨ s' = s.faulted .invariantViolation ∨ s' = s.faulted .operandViolation := by
      intro w b s' h
      unfold inverseOfOdd inverseOfOddPart at h
      rcases h with h | h <;> split at h
      · exact .inr (.inr (Host.Outcome.next.inj h).symm)
      · rcases F _ _ _ h with h | h
        · exact .inl h
        · exact .inr (.inl h)
      · exact .inr (.inr (Host.Outcome.next.inj h).symm)
      · rcases F _ _ _ h with h | h
        · exact .inl h
        · exact .inr (.inl h)
    cases i with
    | new | resize | shrink | clean | rdlimb | wrlimb | setbit | unsetbit | forcebit | isbitset =>
      simp only [exec, execNew, execResize, execShrink, execClean, execRdlimb, execWrlimb, execSetbit, execUnsetbit, execForcebit, execIsbitset, withOperands_some hp, raiseFault, complete] at h
      repeat' split at h
      all_goals first
        | exact ⟨p, _, rfl, D _ _ _ _ _, .inl (Host.Outcome.next.inj h).symm⟩
        | exact ⟨p, s, rfl, .refl s, .inr (.inl ⟨rfl, _, (Host.Outcome.next.inj h).symm, by simp⟩)⟩
    | divmod =>
      simp only [exec, execDivmod, withOperands_some hp, raiseFault, complete] at h
      split at h
      · exact ⟨p, s, rfl, .refl s, .inr (.inl ⟨rfl, _, (Host.Outcome.next.inj h).symm, by simp⟩)⟩
      split at h
      · exact ⟨p, _, rfl, D _ _ _ _ _, .inl (Host.Outcome.next.inj h).symm⟩
      rename_i h0 h1
      have h2 : 2 ≤ p.a0.toNat := by
        have := mt (fun e => BitVec.eq_of_toNat_eq (y := 0#64) e) h0
        have := mt (fun e => BitVec.eq_of_toNat_eq (y := 1#64) e) h1
        simp at *; omega
      split at h
      · exact ⟨p, divided p.a0.toNat s, rfl, D _ _ _ _ _, .inr (.inr ⟨rfl, h2, rfl, (Host.Outcome.next.inj h).symm⟩)⟩
      · exact ⟨p, divided p.a0.toNat s, rfl, D _ _ _ _ _, .inl (Host.Outcome.next.inj h).symm⟩
    | invoddW32 | invoddW64 | modinvW32 | modinvW64 =>
      simp only [exec, execInvoddW32, execInvoddW64, execModinvW32, execModinvW64, withOperands_some hp] at h
      try split at h
      all_goals first
        | exact ⟨p, s, rfl, .refl s, .inr (.inl ⟨rfl, _, (Host.Outcome.next.inj h).symm, by simp⟩)⟩
        | (rcases I _ _ (by first | exact Or.inl h | exact Or.inr h) with ⟨r0, r1, rfl⟩ | rfl | rfl
           · exact ⟨p, _, rfl, D _ _ _ _ _, .inl rfl⟩
           · exact ⟨p, s, rfl, .refl s, .inr (.inl ⟨rfl, _, rfl, by simp⟩)⟩
           · exact ⟨p, s, rfl, .refl s, .inr (.inl ⟨rfl, _, rfl, by simp⟩)⟩)

/-- With a command in flight, every command answers a next state. -/
theorem exec_answers (i : Instr) (s : State) (p : Pend) (hp : s.pend = some p) : ∃ t, exec i s = .next t := by
  have F : ∀ {w} (b : BitVec w) k, ∃ t, finishInverse b k s = .next t := by
    intro w b k; unfold finishInverse; split <;> exact ⟨_, rfl⟩
  have I : ∀ {w} (b : BitVec w), ∃ t, inverseOfOdd b s = .next t := by
    intro w b; unfold inverseOfOdd; split
    · exact ⟨_, rfl⟩
    · exact F _ _
  have M : ∀ {w} (b : BitVec w), ∃ t, inverseOfOddPart b s = .next t := by
    intro w b; unfold inverseOfOddPart; split
    · exact ⟨_, rfl⟩
    · exact F _ _
  cases i <;> simp only [exec, execNew, execResize, execShrink, execClean, execRdlimb, execWrlimb, execSetbit, execUnsetbit, execForcebit, execIsbitset, execDivmod, execModinvW32, execModinvW64, execInvoddW32, execInvoddW64, withOperands_some hp] <;> (repeat' split) <;> first | exact ⟨_, rfl⟩ | exact I _ | exact M _

/-- Everything the completion step can do. -/
theorem completion_cases {s t : State} (h : completion s = .next t) :
   ∃ p, s.pend = some p ∧ ((∃ i, decode p.word = .ok i ∧ exec i s = .next t) ∨ (∃ e, decode p.word = .error e ∧ t = s.faulted .illegalCommand)) := by
  unfold completion at h
  split at h
  · cases h
  · rename_i p hp
    refine ⟨p, hp, ?_⟩
    split at h
    · rename_i i hi; exact .inl ⟨i, hi, h⟩
    · rename_i e he; exact .inr ⟨e, he, (Host.Outcome.next.inj h).symm⟩

end Sys2Proof.Machine
end

