-- ==== Sys2Proof/Laws/Memory.lean ====
section
/-! SUPPORT. The laws of the limb store: a read after a write, frames, the canonical form kept, the value of the
BigNum. -/

namespace Sys2Proof.Machine

@[simp] theorem Memory.read_nil (i : Nat) : Memory.read [] i = 0 := rfl

theorem Memory.read_cons (c : Nat × Word) (m : Memory) (i : Nat) :
    Memory.read (c :: m) i = if c.1 = i then c.2 else Memory.read m i := rfl

theorem Memory.read_of_not_mem (m : Memory) (i : Nat) (h : ∀ c ∈ m, c.1 ≠ i) : Memory.read m i = 0 := by
  induction m with
  | nil => rfl
  | cons c m ih =>
    rw [read_cons, if_neg (h c (by simp)), ih fun d hd => h d (by simp [hd])]

/-- A filter that keeps every cell of index `i` keeps the read of `i`. -/
theorem Memory.read_filter_keep (m : Memory) (p : Nat × Word → Bool) (i : Nat) (h : ∀ c, c.1 = i → p c = true) :
    Memory.read (m.filter p) i = Memory.read m i := by
  induction m with
  | nil => rfl
  | cons c m ih =>
    by_cases hp : p c = true
    · rw [List.filter_cons_of_pos hp, read_cons, read_cons, ih]
    · rw [List.filter_cons_of_neg hp, ih, read_cons, if_neg fun hc => hp (h c hc)]

/-- Zero-filling: inside the range every limb reads 0, outside it reads as before (R100, R101). -/
theorem Memory.read_zeroFill (m : Memory) (lo hi i : Nat) :
    Memory.read (Memory.zeroFill m lo hi) i = if lo ≤ i ∧ i < hi then 0 else Memory.read m i := by
  split
  · rename_i h
    refine read_of_not_mem _ _ fun c hc hci => ?_
    simp only [zeroFill, List.mem_filter] at hc
    subst hci
    simp [h.1, h.2] at hc
  · rename_i h
    refine read_filter_keep _ _ _ fun c hc => ?_
    subst hc
    simp only [Bool.not_eq_true', Bool.and_eq_false_iff, decide_eq_false_iff_not]
    omega

theorem Memory.read_insert_same (m : Memory) (i : Nat) (v : Word) (h : ∀ c ∈ m, c.1 ≠ i) :
    Memory.read (Memory.insert (i, v) m) i = v := by
  induction m with
  | nil => simp [insert, read]
  | cons d m ih =>
    unfold insert
    split
    · simp [read]
    · rw [read_cons, if_neg (h d (by simp)), ih fun c hc => h c (by simp [hc])]

theorem Memory.read_insert_other (m : Memory) (i j : Nat) (v : Word) (h : j ≠ i) :
    Memory.read (Memory.insert (i, v) m) j = Memory.read m j := by
  induction m with
  | nil => simp [insert, read, h.symm]
  | cons d m ih =>
    unfold insert
    split
    · rw [read_cons, if_neg h.symm]
    · rw [read_cons, read_cons, ih]

theorem Memory.not_mem_zeroFill_one (m : Memory) (i : Nat) : ∀ c ∈ Memory.zeroFill m i (i + 1), c.1 ≠ i := by
  intro c hc hci
  simp only [zeroFill, List.mem_filter] at hc
  subst hci
  simp at hc

/-- A read after a write: the value at the written index, every other limb as before. -/
theorem Memory.read_write (m : Memory) (i j : Nat) (v : Word) :
    Memory.read (Memory.write m i v) j = if j = i then v else Memory.read m j := by
  have hz : j ≠ i → Memory.read (Memory.zeroFill m i (i + 1)) j = Memory.read m j := fun h => by
    rw [read_zeroFill, if_neg (by omega)]
  unfold write
  by_cases h : j = i
  · subst h
    split
    · rename_i hv; rw [read_zeroFill]; simp [hv]
    · rw [if_pos rfl, read_insert_same _ _ _ (not_mem_zeroFill_one m j)]
  · rw [if_neg h]
    split
    · exact hz h
    · rw [read_insert_other _ _ _ _ h, hz h]

@[simp] theorem Memory.read_write_same (m : Memory) (i : Nat) (v : Word) :
    Memory.read (Memory.write m i v) i = v := by simp [read_write]

theorem Memory.read_write_other (m : Memory) {i j : Nat} (v : Word) (h : j ≠ i) :
    Memory.read (Memory.write m i v) j = Memory.read m j := by simp [read_write, h]

/-! ### The canonical form -/

theorem Memory.wf_nil : Memory.wf [] := by simp [wf]

theorem Memory.wf_zeroFill {m : Memory} (h : Memory.wf m) (lo hi : Nat) : Memory.wf (Memory.zeroFill m lo hi) :=
  ⟨h.1.filter _, fun c hc => h.2 c (List.mem_filter.1 hc).1⟩

theorem Memory.mem_insert (c d : Nat × Word) (m : Memory) : d ∈ Memory.insert c m ↔ d = c ∨ d ∈ m := by
  induction m with
  | nil => simp [insert]
  | cons e m ih =>
    unfold insert
    split
    · simp
    · simp only [List.mem_cons, ih]; tauto

theorem Memory.pairwise_insert {m : Memory} (c : Nat × Word) (h : m.Pairwise fun a b => a.1 < b.1)
    (hc : ∀ d ∈ m, d.1 ≠ c.1) : (Memory.insert c m).Pairwise fun a b => a.1 < b.1 := by
  induction m with
  | nil => simp [insert]
  | cons e m ih =>
    obtain ⟨he, hm⟩ := List.pairwise_cons.1 h
    unfold insert
    split
    · rename_i hlt
      refine List.pairwise_cons.2 ⟨fun d hd => ?_, h⟩
      rcases List.mem_cons.1 hd with rfl | hd
      · exact hlt
      · exact hlt.trans (he d hd)
    · rename_i hlt
      refine List.pairwise_cons.2 ⟨fun d hd => ?_, ih hm fun d hd => hc d (by simp [hd])⟩
      rcases (mem_insert c d m).1 hd with rfl | hd
      · exact lt_of_le_of_ne (not_lt.1 hlt) (hc e (by simp))
      · exact he d hd

/-- A write keeps the canonical form. -/
theorem Memory.wf_write {m : Memory} (h : Memory.wf m) (i : Nat) (v : Word) : Memory.wf (Memory.write m i v) := by
  unfold write
  split
  · exact wf_zeroFill h _ _
  · rename_i hv
    refine ⟨pairwise_insert _ (wf_zeroFill h _ _).1 (not_mem_zeroFill_one m i), fun c hc => ?_⟩
    rcases (mem_insert _ c _).1 hc with rfl | hc
    · exact hv
    · exact (wf_zeroFill h _ _).2 c hc

theorem Memory.mem_zeroFill {m : Memory} {lo hi : Nat} {c : Nat × Word} (h : c ∈ Memory.zeroFill m lo hi) : c ∈ m :=
  (List.mem_filter.1 h).1

theorem Memory.mem_write {m : Memory} {i : Nat} {v : Word} {c : Nat × Word} (h : c ∈ Memory.write m i v) :
    c.1 = i ∨ c ∈ m := by
  unfold write at h
  split at h
  · exact .inr (mem_zeroFill h)
  · rcases (mem_insert _ c _).1 h with rfl | h
    · exact .inl rfl
    · exact .inr (mem_zeroFill h)

theorem Memory.wf_ofRaw (n : Nat) (raw : List (Nat × Word)) : Memory.wf (Memory.ofRaw n raw) := by
  induction raw with
  | nil => exact wf_nil
  | cons c raw ih =>
    simp only [ofRaw, List.foldr_cons]
    split
    · exact wf_write ih _ _
    · exact ih

theorem Memory.ofRaw_physical (n : Nat) (raw : List (Nat × Word)) : ∀ c ∈ Memory.ofRaw n raw, c.1 < n := by
  induction raw with
  | nil => simp [ofRaw]
  | cons c raw ih =>
    intro d hd
    simp only [ofRaw, List.foldr_cons] at hd
    split at hd
    · rename_i hc
      rcases mem_write hd with h | h
      · omega
      · exact ih d h
    · exact ih d hd

theorem wf_drawLimbs (n k : Nat) : Memory.wf (drawLimbs n k) := Memory.wf_ofRaw _ _

theorem drawLimbs_physical (n k : Nat) : ∀ c ∈ drawLimbs n k, c.1 < n := Memory.ofRaw_physical _ _

/-! ### The value -/

@[simp] theorem Memory.num_zero (m : Memory) : Memory.num m 0 = 0 := rfl

theorem Memory.num_succ (m : Memory) (n : Nat) :
    Memory.num m (n + 1) = Memory.num m n + 2 ^ (64 * n) * (Memory.read m n).toNat := rfl

theorem Memory.num_congr {m m' : Memory} {n : Nat} (h : ∀ i < n, Memory.read m' i = Memory.read m i) :
    Memory.num m' n = Memory.num m n := by
  induction n with
  | zero => rfl
  | succ n ih => rw [num_succ, num_succ, ih fun i hi => h i (by omega), h n (by omega)]

/-- The value depends on the limbs below LEN only. -/
theorem value_congr {s t : State} (hl : t.len = s.len)
    (h : ∀ i < s.len.toNat, Memory.read t.limbs i = Memory.read s.limbs i) : t.value = s.value := by
  unfold State.value; rw [hl]; exact Memory.num_congr h

/-- A write at or above the limbs counted does not change the value. -/
theorem Memory.num_write_of_le (m : Memory) {n i : Nat} (v : Word) (h : n ≤ i) :
    Memory.num (Memory.write m i v) n = Memory.num m n :=
  num_congr fun j hj => read_write_other m v (by omega)

/-- The value of `n` limbs is below 2^(64n). -/
theorem Memory.num_lt (m : Memory) (n : Nat) : Memory.num m n < 2 ^ (64 * n) := by
  induction n with
  | zero => simp
  | succ n ih =>
    rw [num_succ]
    have h := (Memory.read m n).isLt
    have e : (2 : Nat) ^ (64 * (n + 1)) = 2 ^ 64 * 2 ^ (64 * n) := by rw [← pow_add]; congr 1; omega
    rw [e]
    calc _ < 2 ^ (64 * n) + 2 ^ (64 * n) * (Memory.read m n).toNat := by omega
      _ = ((Memory.read m n).toNat + 1) * 2 ^ (64 * n) := by ring
      _ ≤ _ := Nat.mul_le_mul_right _ h

/-- Limbs that are zero add nothing to the value. -/
theorem Memory.num_of_zero_above (m : Memory) {k n : Nat} (hkn : k ≤ n)
    (h : ∀ i, k ≤ i → i < n → Memory.read m i = 0) : Memory.num m n = Memory.num m k := by
  induction n with
  | zero => rw [Nat.le_zero.1 hkn]
  | succ n ih =>
    rcases Nat.lt_or_ge n k with hlt | hge
    · rw [show k = n + 1 by omega]
    · rw [num_succ, h n hge (by omega), ih hge fun i hi hin => h i hi (by omega)]; simp

end Sys2Proof.Machine
end

