-- ==== Sys2Proof/Laws/Bits.lean ====
section
/-! SUPPORT. Bit positions, LEN growth, the scan of CLEAN, and the bits of the value (R51, R103, R120 to R123). -/

namespace Sys2Proof.Machine

theorem bits_limbIndex (pos : Word) : limbIndex pos = pos.toNat / 64 := by
  simp [limbIndex, Nat.shiftRight_eq_div_pow]

theorem bits_limbOffset (pos : Word) : limbOffset pos = pos.toNat % 64 := by
  simp only [limbOffset, BitVec.toNat_and, BitVec.toNat_ofNat]
  exact Nat.and_two_pow_sub_one_eq_mod _ 6

theorem limbIndex_lt {pos : Word} {n : Nat} : limbIndex pos < n ↔ pos.toNat < n * 64 := by
  rw [bits_limbIndex]; omega

theorem lenCover_toNat {len : Word} {k : Nat} (h : k + 1 < 2^64) : (lenCover len k).toNat = max len.toNat (k+1) := by
  have := len.isLt
  simp only [lenCover, BitVec.toNat_ofNat]; rw [Nat.mod_eq_of_lt]; omega

theorem lenCover_bit (len pos : Word) : (lenCover len (limbIndex pos)).toNat = max len.toNat (limbIndex pos + 1) := by
  apply lenCover_toNat; rw [bits_limbIndex]; have := pos.isLt; omega

theorem le_one_cases {v : Word} (h : v.toNat ≤ 1) : v = 0 ∨ v = 1 := by
  have : v.toNat = 0 ∨ v.toNat = 1 := by omega
  rcases this with h | h
  · left; apply BitVec.eq_of_toNat_eq; simpa using h
  · right; apply BitVec.eq_of_toNat_eq; simpa using h

/-- The mask has exactly the position's bit. -/
theorem mask_bits (pos : Word) (j : Nat) (hj : j < 64) : (bitMask pos).getLsbD j = decide (j = limbOffset pos) := by
  unfold bitMask
  have : limbOffset pos < 64 := by rw [bits_limbOffset]; omega
  rw [BitVec.getLsbD_shiftLeft]
  simp only [hj, decide_true, Bool.true_and, BitVec.getLsbD_one]
  rw [Bool.eq_iff_iff]; simp; omega

/-- The limb store after SETBIT, bit by bit. -/
theorem set_bits (m : Memory) (pos : Word) (i j : Nat) (hj : j < 64) :
   (Memory.read (Memory.write m (limbIndex pos) (Memory.read m (limbIndex pos) ||| bitMask pos)) i).getLsbD j = (decide (i = limbIndex pos ∧ j = limbOffset pos) || (Memory.read m i).getLsbD j) := by
  rw [Memory.read_write]
  split
  · rename_i h; subst h; rw [BitVec.getLsbD_or, mask_bits _ _ hj]; simp [Bool.or_comm]
  · rename_i h; simp [h]

/-- The limb store after UNSETBIT, bit by bit. -/
theorem unset_bits (m : Memory) (pos : Word) (i j : Nat) (hj : j < 64) :
   (Memory.read (Memory.write m (limbIndex pos) (Memory.read m (limbIndex pos) &&& ~~~ bitMask pos)) i).getLsbD j = (!decide (i = limbIndex pos ∧ j = limbOffset pos) && (Memory.read m i).getLsbD j) := by
  rw [Memory.read_write]
  split
  · rename_i h; subst h; rw [BitVec.getLsbD_and, BitVec.getLsbD_not, mask_bits _ _ hj]; simp only [hj, decide_true, Bool.true_and, true_and, Bool.and_comm]
  · rename_i h; simp [h]

/-- The limb store after FORCEBIT, bit by bit. -/
theorem force_bits (m : Memory) (pos v : Word) (hv : v.toNat ≤ 1) (i j : Nat) (hj : j < 64) :
   (Memory.read (Memory.write m (limbIndex pos) ((Memory.read m (limbIndex pos) &&& ~~~ bitMask pos) ||| v * bitMask pos)) i).getLsbD j = if i = limbIndex pos ∧ j = limbOffset pos then v == 1 else (Memory.read m i).getLsbD j := by
  rw [Memory.read_write]
  by_cases h : i = limbIndex pos
  · rw [if_pos h]; subst h
    rcases le_one_cases hv with rfl | rfl
    · rw [BitVec.getLsbD_or, BitVec.getLsbD_and, BitVec.getLsbD_not, mask_bits _ _ hj, show (0 : Word) * bitMask pos = 0 by ring]; by_cases h : j = limbOffset pos <;> simp [h, hj]
    · rw [BitVec.getLsbD_or, BitVec.getLsbD_and, BitVec.getLsbD_not, show (1 : Word) * bitMask pos = bitMask pos by ring, mask_bits _ _ hj]; by_cases h : j = limbOffset pos <;> simp [h, hj]
  · rw [if_neg h, if_neg (by tauto)]

/-- The bits of the value are the bits of its limbs (R14, R51). -/
theorem num_testBit (m : Memory) (n j : Nat) :
    (Memory.num m n).testBit j = (decide (j < n * 64) && (Memory.read m (j/64)).getLsbD (j % 64)) := by
  induction n with
  | zero => simp
  | succ n ih =>
    rw [Memory.num_succ, add_comm, Nat.testBit_two_pow_mul_add _ (Memory.num_lt m n), ih]
    by_cases h : j < 64 * n
    · rw [if_pos h]; simp [show j < n * 64 by omega, show j < (n+1)*64 by omega]
    · rw [if_neg h]
      by_cases h2 : j < (n+1)*64
      · have e1 : j / 64 = n := by omega
        have e2 : j - 64*n = j % 64 := by omega
        simp [h2, e1, e2, BitVec.getLsbD]
      · simp only [h2, decide_false, Bool.false_and]
        apply Nat.testBit_lt_two_pow
        have := (Memory.read m n).isLt
        exact lt_of_lt_of_le this (Nat.pow_le_pow_right (by norm_num) (by omega))

theorem cleanScan_le (m : Memory) (n : Nat) : cleanScan m n ≤ n := by
  induction n with
  | zero => simp [cleanScan]
  | succ n ih => unfold cleanScan; split <;> omega

/-- The limbs CLEAN drops are zero. -/
theorem cleanScan_zero (m : Memory) (n : Nat) : ∀ i, cleanScan m n ≤ i → i < n → Memory.read m i = 0 := by
  induction n with
  | zero => intro i _ h; omega
  | succ n ih =>
    intro i h1 h2
    unfold cleanScan at h1
    split at h1
    · rcases Nat.lt_or_ge i n with h | h
      · exact ih i h1 h
      · rw [show i = n by omega]; assumption
    · omega

/-- The limb CLEAN stops at is not zero. -/
theorem cleanScan_top (m : Memory) (n : Nat) : cleanScan m n = 0 ∨ Memory.read m (cleanScan m n - 1) ≠ 0 := by
  induction n with
  | zero => simp [cleanScan]
  | succ n ih =>
    unfold cleanScan; split
    · exact ih
    · right; simpa

theorem clean_len (s : State) : (BitVec.ofNat 64 (cleanScan s.limbs s.len.toNat)).toNat = cleanScan s.limbs s.len.toNat := by
  have := cleanScan_le s.limbs s.len.toNat
  have := s.len.isLt
  rw [BitVec.toNat_ofNat, Nat.mod_eq_of_lt (by omega)]

end Sys2Proof.Machine
end

