-- ==== Sys2Proof/Laws/Bus.lean ====
section
/-! SUPPORT. What a host access and a host statement can do (R30, R31, R36, R41, R79). -/

namespace Sys2Proof.Machine

theorem offsetOf_base {off : Nat} (h : off < 0x80) : offsetOf (Config.base + off) = some off := by
  unfold offsetOf; rw [if_pos (by omega)]; congr 1; omega

theorem accessReg_map : ∀ x ∈ [(0x00, HostReg.cmd), (0x08, .arg0), (0x10, .arg1), (0x18, .res0), (0x20, .res1), (0x28, .status),
      (0x30, .len), (0x38, .cap), (0x40, .param)], x.1 < 0x80 ∧ regAt x.1 = some x.2 := by decide

/-- Everything a register write can do. -/
theorem writeReg_cases (r : HostReg) (v : Word) (s : State) :
   writeReg r v s = s ∨ (s.status.fault = false ∧ s.status.busy = true ∧ writeReg r v s = s.collided) ∨
   (s.status.fault = false ∧ s.status.busy = false ∧ (writeReg r v s = s.issued v ∨ writeReg r v s = {s with arg0 := v} ∨ writeReg r v s = {s with arg1 := v})) := by
  cases hf : s.status.fault <;> cases hb : s.status.busy <;> cases r <;> simp [writeReg, guardedWrite, hf, hb]

/-- A read changes at most the counter of draws (R41, R56). -/
theorem readReg_cases (r : HostReg) (s : State) : (readReg r s).2 = s ∨ (readReg r s).2 = {s with fresh := s.fresh + 1} := by
  unfold readReg; split <;> simp

/-- The host's side moved, and the block did not: what every host statement but a register write does. -/
structure HostSideOnly (s t : State) : Prop where
  block : BlockSame s t
  limbs : t.limbs = s.limbs
  schedule : t.schedule = s.schedule
  latency : t.latency = s.latency
  vars : t.host.vars = s.host.vars ∨ ∃ hv w, t.host.vars = Memory.write s.host.vars hv w

theorem HostSideOnly.of_host (s : State) (hc : HostCtx)
    (h : hc.vars = s.host.vars ∨ ∃ hv w, hc.vars = Memory.write s.host.vars hv w) :
    HostSideOnly s { s with host := hc } :=
  ⟨⟨⟨fun _ => rfl, rfl, rfl, rfl, rfl⟩, rfl, rfl, rfl, rfl, rfl, rfl⟩, rfl, rfl, rfl, h⟩

/-- Everything `rd` does: the value read lands in the variable, the block stays, the host goes on. -/
theorem readInto_same (hv : HVar) (r : HostReg) (s : State) :
    HostSideOnly s (readInto hv r s) ∧
    (readInto hv r s).host.vars = Memory.write s.host.vars hv (readReg r s).1 ∧
    (readInto hv r s).host.pos = s.host.pos + 1 := by
  unfold readInto
  rcases readReg_cases r s with h | h <;> rw [h] <;>
    exact ⟨⟨⟨⟨fun _ => rfl, rfl, rfl, rfl, rfl⟩, rfl, rfl, rfl, rfl, rfl, rfl⟩, rfl, rfl, rfl, .inr ⟨_, _, rfl⟩⟩, rfl, rfl⟩

/-- Everything one turn of `wait` does. -/
theorem waitTurn_same (s : State) :
    HostSideOnly s (waitTurn s) ∧
    (waitTurn s).host.vars = Memory.write s.host.vars tVar s.status.word ∧
    (waitTurn s).host.pos = (if s.status.word.getLsbD 0 then s.host.pos else s.host.pos + 1) := by
  have h : readReg .status s = (s.status.word, s) := rfl
  unfold waitTurn
  simp only [h]
  split <;>
    exact ⟨⟨⟨⟨fun _ => rfl, rfl, rfl, rfl, rfl⟩, rfl, rfl, rfl, rfl, rfl, rfl⟩, rfl, rfl, rfl, .inr ⟨_, _, rfl⟩⟩, rfl, rfl⟩

theorem jumpTo_same {l : Nat} {s t : State} (h : jumpTo l s = .next t) : HostSideOnly s t := by
  unfold jumpTo at h
  split at h
  · cases h; exact .of_host _ _ (.inl rfl)
  · cases h

theorem branch_same {c : Bool} {l : Nat} {s t : State} (h : branch c l s = .next t) : HostSideOnly s t := by
  unfold branch at h
  split at h
  · exact jumpTo_same h
  · cases h; exact .of_host _ _ (.inl rfl)

/-- Everything a host statement that goes on can do. -/
theorem hostStmt_cases {st : HostStmt} {s t : State} (h : hostStmt st s = .next t) :
    (∃ r v, t = (writeReg r v s).advance) ∨ HostSideOnly s t := by
  cases st with
  | wr r v => cases h; exact .inl ⟨_, _, rfl⟩
  | cmd i => cases h; exact .inl ⟨_, _, rfl⟩
  | wait => cases h; exact .inr (waitTurn_same s).1
  | rd hv r => cases h; exact .inr (readInto_same hv r s).1
  | label l => cases h; exact .inr (.of_host _ _ (.inl rfl))
  | bnez hv l => exact .inr (branch_same h)
  | beqz hv l => exact .inr (branch_same h)
  | push v => cases h; exact .inr (.of_host _ _ (.inl rfl))
  | halt => cases h; exact .inr (.of_host _ _ (.inl rfl))
  | stopIfFault hv =>
    simp only [hostStmt] at h
    split at h <;> (cases h; exact .inr (.of_host _ _ (.inl rfl)))
  | memRead hv a z =>
    simp only [hostStmt] at h
    split at h <;> cases h
    exact .inr (readInto_same hv _ s).1
  | memWrite a z v =>
    simp only [hostStmt] at h
    split at h <;> cases h
    exact .inl ⟨_, _, rfl⟩
  | otherHost => cases h

/-- Everything a host turn that goes on can do. -/
theorem hostTurn_cases {s t : State} (h : hostTurn s = .next t) :
    t = s ∨ (∃ r v, t = (writeReg r v s).advance) ∨ HostSideOnly s t := by
  unfold hostTurn at h
  split at h
  · split at h
    · exact .inr (hostStmt_cases h)
    · cases h; exact .inl rfl
  all_goals cases h; exact .inl rfl

/-- A host turn goes on or is refused; it never faults. -/
theorem hostTurn_answers (s : State) : (∃ t, hostTurn s = .next t) ∨ ∃ r, hostTurn s = .refused r := by
  have J : ∀ l, (∃ t, jumpTo l s = .next t) ∨ ∃ r, jumpTo l s = .refused r := by
    intro l; unfold jumpTo; split
    · exact .inl ⟨_, rfl⟩
    · exact .inr ⟨_, rfl⟩
  have B : ∀ c l, (∃ t, branch c l s = .next t) ∨ ∃ r, branch c l s = .refused r := by
    intro c l; unfold branch; split
    · exact J l
    · exact .inl ⟨_, rfl⟩
  unfold hostTurn
  split
  · split
    · rename_i st _
      cases st <;> simp only [hostStmt] <;> (try split) <;> first | exact .inl ⟨_, rfl⟩ | exact .inr ⟨_, rfl⟩ | exact B _ _
    · exact .inl ⟨_, rfl⟩
  all_goals exact .inl ⟨_, rfl⟩

/-- The invariant depends on these fields only. -/
theorem inv_congr {s t : State} (hs : s.Inv) (hb : BlockSame s t) (hL : t.limbs = s.limbs)
    (hv : Memory.wf t.host.vars) : t.Inv := by
  have hc : t.capMax = s.capMax := by simp [State.capMax, hb.param]
  constructor
  · rw [hc]; exact hs.capMax_legal
  · rw [hb.pend, hb.status]; exact hs.pend_iff_busy
  · intro p; rw [hb.pend, hb.cmd, hb.arg0, hb.arg1]; exact hs.latched p
  · rw [hb.status]; exact hs.not_busy_and_fault
  · rw [hb.status]; exact hs.done_idle
  · rw [hb.status]; exact hs.err_iff_fault
  · rw [hb.status]; intro hf; have := hs.lengths hf; simpa [State.lengthsOrdered, hc, hb.data.len, hb.data.cap] using this
  · rw [hb.status]; intro hf; have := hs.tail hf
    intro i; rw [hL, hb.data.len, hb.data.cap]; exact this i
  · rw [hL]; exact hs.limbs_wf
  · rw [hL, hc]; exact hs.limbs_physical
  · exact hv

end Sys2Proof.Machine
end

