-- ==== Sys2Proof/Laws/Decode.lean ====
section
/-! SUPPORT. The decoder and the byte lanes: fields of a word, what an accepted word looks like (R70 to R76, R55). -/

namespace Sys2Proof.Machine

/-- A word is its four fields (R70). -/
theorem word_fields (c : Word) : c.toNat = fieldOpc c + 2^8 * (fieldW c + 2 * (fieldRsv c + 2^23 * fieldRsvh c)) := by
  unfold fieldOpc fieldW fieldRsv fieldRsvh; omega

/-- What the decoder accepts: RSVH and RSV zero, and a row of the map with this OPC and W. -/
theorem decode_ok_mem {c : Word} {i : Instr} (h : decode c = .ok i) :
    fieldRsvh c = 0 ∧ fieldRsv c = 0 ∧ ⟨fieldOpc c, fieldW c, i⟩ ∈ opcodeMap := by
  unfold decode at h
  split at h; · cases h
  split at h; · cases h
  rename_i h1 h2
  split at h
  · rename_i r hr
    have hm := List.mem_of_find?_eq_some hr
    have hp := List.find?_some hr
    simp only [Bool.and_eq_true, beq_iff_eq] at hp
    cases h
    exact ⟨not_not.1 h1, not_not.1 h2, by rw [← hp.1, ← hp.2]; exact hm⟩
  · split at h <;> cases h

/-- The encoder agrees with the rows of the map. -/
theorem mem_map_encode : ∀ r ∈ opcodeMap, (encode r.instr).toNat = r.opc + 2^8 * r.w := by decide

/-- The static check in terms of the fields. -/
theorem wf_iff (c : Word) : commandWordWf c = true ↔
   fieldRsvh c = 0 ∧ fieldRsv c = 0 ∧ opcAssigned (fieldOpc c) = true ∧ (fieldW c = 0 ∨ fieldOpc c = 0x30 ∨ fieldOpc c = 0x31) := by
  unfold commandWordWf
  simp only [Bool.and_eq_true, beq_iff_eq, Bool.or_eq_true]
  have e : c.toNat / 2^9 = 0 ↔ fieldRsvh c = 0 ∧ fieldRsv c = 0 := by
    unfold fieldRsvh fieldRsv; omega
  rw [e]; unfold fieldOpc fieldW; tauto

theorem find_none_reason' : ∀ o : Fin 0x32, ∀ w : Fin 2, (opcodeMap.find? (fun r => r.opc == o.val && r.w == w.val)).isNone = true →
   opcAssigned o.val = false ∨ (w.val = 1 ∧ o.val ≠ 0x30 ∧ o.val ≠ 0x31) := by decide

/-- No row of the map: OPC is unassigned, or W is 1 with an OPC that takes none. -/
theorem find_none_reason (o w : Nat) (hw : w < 2) (h : opcodeMap.find? (fun r => r.opc == o && r.w == w) = none) :
   opcAssigned o = false ∨ (w = 1 ∧ o ≠ 0x30 ∧ o ≠ 0x31) := by
  by_cases ho : o < 0x32
  · exact find_none_reason' ⟨o, ho⟩ ⟨w, hw⟩ (by simp only [h]; rfl)
  · left; rw [← Bool.not_eq_true]; simp only [opcAssigned, Bool.or_eq_true, Bool.and_eq_true, decide_eq_true_eq, beq_iff_eq]; omega

/-- A row of the map has an assigned OPC, and W = 1 only with OPC 0x30 or 0x31. -/
theorem find_some_assigned (o w : Nat) (r) (h : opcodeMap.find? (fun r => r.opc == o && r.w == w) = some r) :
   opcAssigned o = true ∧ (w = 0 ∨ o = 0x30 ∨ o = 0x31) := by
  have hm := List.mem_of_find?_eq_some h
  have hp := List.find?_some h
  simp only [Bool.and_eq_true, beq_iff_eq] at hp
  rw [← hp.1, ← hp.2]
  revert hm; clear hp h
  revert r; decide

end Sys2Proof.Machine
end

