-- ==== Sys2Proof/Laws/Division.lean ====
section
/-! SUPPORT. Short division: the loop computes quotient limbs and remainder, and what the adjusted length means (R140). -/

namespace Sys2Proof.Machine

/-- Limbs that are base-2^64 digits of a number add up to it. -/
theorem num_digits (m : Memory) (X n : Nat) (h : ∀ j < n, Memory.read m j = BitVec.ofNat 64 (X / 2^(64*j))) :
    Memory.num m n = X % 2^(64*n) := by
  induction n with
  | zero => simp [Nat.mod_one]
  | succ n ih =>
    rw [Memory.num_succ, ih fun j hj => h j (by omega), h n (by omega), BitVec.toNat_ofNat]
    rw [show 64*(n+1) = 64*n + 64 by ring, pow_add, Nat.mod_mul]

/-- The loop of R140. -/
theorem divLoop_spec (d : Nat) (hd : 0 < d) (i : Nat) : ∀ (r : Nat) (m : Memory), r < d →
    let N := r * 2^(64*i) + Memory.num m i
    (divLoop d i r m).1 = N % d ∧
    (∀ j < i, Memory.read (divLoop d i r m).2 j = BitVec.ofNat 64 (N / d / 2^(64*j))) ∧
    (∀ j, i ≤ j → Memory.read (divLoop d i r m).2 j = Memory.read m j) := by
  induction i with
  | zero => intro r m hr; simp [divLoop, Nat.mod_eq_of_lt hr]
  | succ i ih =>
    intro r m hr
    have hL := (Memory.read m i).isLt
    set l := (Memory.read m i).toNat with hl
    set t := partialDividend r (Memory.read m i) with ht0
    have ht : t = 2^64 * r + l := rfl
    set q := t / d with hq
    set r1 := t % d with hr1
    have htd : t < d * 2^64 := by
      calc t < 2^64 * r + 2^64 := by omega
        _ = (r+1) * 2^64 := by ring
        _ ≤ d * 2^64 := Nat.mul_le_mul_right _ hr
    have hq64 : q < 2^64 := Nat.div_lt_of_lt_mul htd
    have hrd : r1 < d := Nat.mod_lt _ hd
    obtain ⟨h1, h2, h3⟩ := ih r1 (Memory.write m i (BitVec.ofNat 64 q)) hrd
    rw [Memory.num_write_of_le _ _ (le_refl i)] at h1 h2
    set N1 := r1 * 2^(64*i) + Memory.num m i with hN1
    have hN : r * 2^(64*(i+1)) + Memory.num m (i+1) = d * (q * 2^(64*i)) + N1 := by
      rw [Memory.num_succ, hN1, ← hl]
      have : d * q + r1 = 2^64 * r + l := by rw [hq, hr1, Nat.div_add_mod, ht]
      have e : 2^(64*(i+1)) = 2^64 * 2^(64*i) := by rw [← pow_add]; congr 1; omega
      rw [e]
      calc _ = (2^64*r + l) * 2^(64*i) + Memory.num m i := by ring
        _ = (d*q + r1) * 2^(64*i) + Memory.num m i := by rw [this]
        _ = _ := by ring
    have hN1lt : N1 / d < 2^(64*i) := by
      apply Nat.div_lt_of_lt_mul
      have := Memory.num_lt m i
      calc N1 < r1 * 2^(64*i) + 2^(64*i) := by omega
        _ = (r1+1) * 2^(64*i) := by ring
        _ ≤ d * 2^(64*i) := Nat.mul_le_mul_right _ hrd
    have hdiv : (d * (q * 2^(64*i)) + N1) / d = q * 2^(64*i) + N1 / d := by
      rw [Nat.mul_add_div hd]
    dsimp only
    rw [hN]
    have hu : divLoop d (i+1) r m = divLoop d i r1 (Memory.write m i (BitVec.ofNat 64 q)) := rfl
    rw [hu]
    refine ⟨by rw [h1, Nat.mul_add_mod], fun j hj => ?_, fun j hj => ?_⟩
    · rw [hdiv]
      rcases Nat.lt_or_ge j i with hji | hji
      · rw [h2 j hji]
        apply BitVec.eq_of_toNat_eq
        simp only [BitVec.toNat_ofNat]
        have : q * 2^(64*i) = 2^(64*j) * (2^64 * (q * 2^(64*(i-j-1)))) := by
          have : 2^(64*i) = 2^(64*j) * (2^64 * 2^(64*(i-j-1))) := by rw [← pow_add, ← pow_add]; congr 1; omega
          rw [this]; ring
        rw [this, Nat.mul_add_div (by positivity), Nat.mul_add_mod]
      · have : j = i := by omega
        subst this
        rw [h3 j (le_refl j), Memory.read_write_same, mul_comm q, Nat.mul_add_div (by positivity), Nat.div_eq_of_lt hN1lt, add_zero]
    · rw [h3 j (by omega), Memory.read_write_other _ _ (by omega)]

/-- A property of the store that each limb write keeps, the loop keeps. -/
theorem divLoop_store (d : Nat) (P : Memory → Prop) (n : Nat) (hP : ∀ m i v, P m → i < n → P (Memory.write m i v)) :
   ∀ i r m, i ≤ n → P m → P (divLoop d i r m).2 := by
  intro i; induction i with
  | zero => intro r m _ h; exact h
  | succ i ih => intro r m hi h; exact ih _ _ (by omega) (hP _ _ _ h (by omega))

/-- Everything DIVMOD writes. -/
theorem divided_spec (s : State) (d : Nat) (hd : 0 < d) (hd64 : d < 2^64):
    (divided d s).res0.toNat = s.value % d ∧
    (∀ i, Memory.read (divided d s).limbs i = if i < s.len.toNat then BitVec.ofNat 64 (s.value / d / 2^(64*i)) else Memory.read s.limbs i) ∧
    (divided d s).len.toNat = (if 0 < s.len.toNat ∧ Memory.read (divided d s).limbs (s.len.toNat - 1) = 0 then s.len.toNat - 1 else s.len.toNat) ∧
    (divided d s).cap = s.cap ∧ (divided d s).res1 = s.res1 ∧ DataUpd s (divided d s) := by
  obtain ⟨h1, h2, h3⟩ := divLoop_spec d hd s.len.toNat 0 s.limbs hd
  simp only [zero_mul, zero_add] at h1 h2
  refine ⟨?_, fun i => ?_, ?_, rfl, rfl, ⟨rfl,rfl,rfl,rfl,rfl,rfl,rfl,rfl,rfl,rfl,rfl⟩⟩
  · show (BitVec.ofNat 64 (divLoop d s.len.toNat 0 s.limbs).1).toNat = _
    rw [h1, BitVec.toNat_ofNat, Nat.mod_eq_of_lt]; rfl
    exact (Nat.mod_lt _ hd).trans hd64
  · show Memory.read (divLoop d s.len.toNat 0 s.limbs).2 i = _
    split
    · rename_i hi; rw [h2 i hi]; rfl
    · rename_i hi; exact h3 i (by omega)
  · show (BitVec.ofNat 64 (dropTopLimb (divLoop d s.len.toNat 0 s.limbs).2 s.len.toNat)).toNat = _
    have := s.len.isLt
    unfold dropTopLimb topLimbZero
    show _ = if 0 < s.len.toNat ∧ Memory.read (divLoop d s.len.toNat 0 s.limbs).2 (s.len.toNat - 1) = 0 then s.len.toNat - 1 else s.len.toNat
    simp only [Bool.and_eq_true, decide_eq_true_eq, beq_iff_eq]
    split <;> (rw [BitVec.toNat_ofNat, Nat.mod_eq_of_lt (by omega)])

theorem topLimbZero_iff (m : Memory) (n : Nat) : topLimbZero m n = true ↔ 0 < n ∧ Memory.read m (n-1) = 0 := by
  simp [topLimbZero]

theorem normalised_iff (s : State) : s.normalised = true ↔ (s.len.toNat = 0 ∨ Memory.read s.limbs (s.len.toNat - 1) ≠ 0) := by
  unfold State.normalised
  rw [Bool.not_eq_true', ← Bool.not_eq_true, topLimbZero_iff]
  constructor
  · intro h; by_contra hc; push Not at hc; exact h ⟨by omega, hc.2⟩
  · rintro (h | h) ⟨h1, h2⟩
    · omega
    · exact h h2

theorem read_digit_zero {X i : Nat} (h : X < 2^(64*(i+1))) : (BitVec.ofNat 64 (X / 2^(64*i)) = 0) ↔ X < 2^(64*i) := by
  rw [← BitVec.toNat_inj]; simp only [BitVec.toNat_ofNat]
  have : X / 2^(64*i) < 2^64 := by
    apply Nat.div_lt_of_lt_mul; rw [← pow_add]; rwa [show 64*i+64 = 64*(i+1) by ring]
  rw [Nat.mod_eq_of_lt this]
  simp [Nat.div_eq_zero_iff]

theorem value_ge (m : Memory) (n : Nat) (h : Memory.read m n ≠ 0) : 2^(64*n) ≤ Memory.num m (n+1) := by
  rw [Memory.num_succ]
  have : 1 ≤ (Memory.read m n).toNat := by
    rw [Nat.one_le_iff_ne_zero]; intro hc; exact h (BitVec.eq_of_toNat_eq (by simpa using hc))
  calc 2^(64*n) = 2^(64*n) * 1 := by ring
    _ ≤ _ := (Nat.mul_le_mul_left _ this).trans (Nat.le_add_left _ _)

/-- The adjusted length and the top limb in terms of the quotient. -/
theorem divided_facts (s : State) (d : Nat) (hd : 2 ≤ d) (hd64 : d < 2^64) :
   let u := divided d s; let n := s.len.toNat; let Q := s.value / d
   Q < 2^(64*n) ∧ Memory.num u.limbs n = Q ∧ u.value = Q ∧
   (u.len.toNat = if 0 < n ∧ Q < 2^(64*(n-1)) then n - 1 else n) ∧
   (topLimbZero u.limbs u.len.toNat = true ↔ 2 ≤ n ∧ Q < 2^(64*(n-2))) := by
  obtain ⟨a1, a2, a3, a4, a5, a6⟩ := divided_spec s d (by omega) hd64
  intro u n Q
  have hN : s.value < 2^(64*n) := Memory.num_lt _ _
  have hQ : Q < 2^(64*n) := lt_of_le_of_lt (Nat.div_le_self _ _) hN
  have hnum : Memory.num u.limbs n = Q := by
    rw [num_digits u.limbs Q n (fun j hj => by rw [a2 j, if_pos hj]), Nat.mod_eq_of_lt hQ]
  have htop : ∀ k, k < n → Q < 2^(64*(k+1)) → (Memory.read u.limbs k = 0 ↔ Q < 2^(64*k)) := by
    intro k hk hq
    rw [a2 k, if_pos hk]; exact read_digit_zero hq
  have hlen : u.len.toNat = if 0 < n ∧ Q < 2^(64*(n-1)) then n - 1 else n := by
    rw [a3]
    by_cases hn : 0 < n
    · have := htop (n-1) (by omega) (by rw [Nat.sub_add_cancel hn]; exact hQ)
      simp only [show s.len.toNat = n from rfl, hn, true_and]
      simp only [u] at this
      by_cases hq : Q < 2^(64*(n-1))
      · rw [if_pos (this.2 hq), if_pos hq]
      · rw [if_neg (mt this.1 hq), if_neg hq]
    · simp only [show s.len.toNat = n from rfl, hn, false_and, if_false]
  have hlt : Q < 2^(64*u.len.toNat) := by
    rw [hlen]; split
    · rename_i h; exact h.2
    · exact hQ
  refine ⟨hQ, hnum, ?_, hlen, ?_⟩
  · show Memory.num u.limbs u.len.toNat = Q
    rw [num_digits u.limbs Q _ (fun j hj => by rw [a2 j, if_pos]; have : u.len.toNat ≤ n := by { rw [hlen]; split <;> omega }; omega), Nat.mod_eq_of_lt hlt]
  · rw [topLimbZero_iff]
    rcases Nat.eq_zero_or_pos u.len.toNat with h0 | h0
    · constructor
      · rintro ⟨h, _⟩; omega
      · rintro ⟨h, _⟩
        rw [hlen] at h0; split at h0 <;> omega
    · have hle : u.len.toNat ≤ n := by rw [hlen]; split <;> omega
      rw [htop (u.len.toNat - 1) (by omega) (by rw [Nat.sub_add_cancel h0]; exact hlt)]
      rw [hlen] at h0 ⊢
      split at h0
      · rename_i h
        rw [if_pos h]
        rw [show n - 1 - 1 = n - 2 by omega]
        constructor
        · rintro ⟨_, h⟩; exact ⟨by omega, h⟩
        · rintro ⟨_, h⟩; exact ⟨by omega, h⟩
      · rename_i h
        rw [if_neg h]
        constructor
        · rintro ⟨h1, h2⟩; exact absurd ⟨h1, h2⟩ h
        · rintro ⟨h1, h2⟩
          exact absurd ⟨by omega, lt_of_lt_of_le h2 (Nat.pow_le_pow_right (by norm_num) (by omega))⟩ h

/-- A normalised BigNum loses at most one limb. -/
theorem norm_quot {s : State} (h : s.normalised = true) {d : Nat} (hd : 2 ≤ d) (hd64 : d < 2^64) :
    ¬ (2 ≤ s.len.toNat ∧ s.value / d < 2^(64*(s.len.toNat-2))) := by
  rintro ⟨h1, h2⟩
  rw [normalised_iff] at h
  rcases h with h | h
  · omega
  have := value_ge s.limbs (s.len.toNat - 1) h
  rw [Nat.sub_add_cancel (by omega)] at this
  rw [Nat.div_lt_iff_lt_mul (by omega)] at h2
  have e : 2^(64*(s.len.toNat - 1)) = 2^(64*(s.len.toNat - 2)) * 2^64 := by rw [← pow_add]; congr 1; omega
  have : 2^(64*(s.len.toNat - 2)) * d < 2^(64*(s.len.toNat - 2)) * 2^64 := Nat.mul_lt_mul_of_pos_left hd64 (by positivity)
  unfold State.value at h2
  omega

theorem execDivmod_eq {s : State} {p : Pend} (hp : s.pend = some p) (h : 2 ≤ p.a0.toNat) :
   exec .divmod s = if topLimbZero (divided p.a0.toNat s).limbs (divided p.a0.toNat s).len.toNat then
      raiseFault .invariantViolation (divided p.a0.toNat s)
    else complete (divided p.a0.toNat s) := by
  obtain ⟨h0, h1⟩ := two_le_iff.1 h
  simp only [exec, execDivmod, withOperands_some hp, h0, h1, if_false]

/-- DIVMOD of a normalised BigNum completes and leaves it normalised. -/
theorem div_norm {s : State} {p : Pend} (hp : s.pend = some p) (h2 : 2 ≤ p.a0.toNat) (hn : s.normalised = true) :
   exec .divmod s = .next (divided p.a0.toNat s).completed ∧ (divided p.a0.toNat s).completed.normalised = true := by
  obtain ⟨b1, b2, b3, b4, b5⟩ := divided_facts s p.a0.toNat h2 p.a0.isLt
  have hz := mt b5.1 (norm_quot hn h2 p.a0.isLt)
  rw [execDivmod_eq hp h2, if_neg hz]
  refine ⟨rfl, ?_⟩
  show (!topLimbZero (divided p.a0.toNat s).limbs (divided p.a0.toNat s).len.toNat) = true
  simpa using hz

end Sys2Proof.Machine
end

