-- ==== Sys2Proof/Laws/Inverse.lean ====
section
/-! SUPPORT. The modular inverse: the loop of R160 keeps `A = Y * b` and ends at the gcd; trailing zeros (R12). -/

namespace Sys2Proof.Machine

theorem bv_ofNat_mul {w} (a b : Nat) : BitVec.ofNat w (a*b) = BitVec.ofNat w a * BitVec.ofNat w b := by
  apply BitVec.eq_of_toNat_eq; simp [Nat.mul_mod]

theorem bv_ofNat_add {w} (a b : Nat) : BitVec.ofNat w (a+b) = BitVec.ofNat w a + BitVec.ofNat w b := by
  apply BitVec.eq_of_toNat_eq; simp [Nat.add_mod]

theorem bv_mod {w} (a b : BitVec w) : a % b = a - a / b * b := by
  have h : BitVec.ofNat w (b.toNat * (a.toNat / b.toNat) + a.toNat % b.toNat) = a := by
    rw [Nat.div_add_mod]; simp
  rw [bv_ofNat_add, bv_ofNat_mul] at h
  have e1 : BitVec.ofNat w (a.toNat / b.toNat) = a / b := by
    apply BitVec.eq_of_toNat_eq; simp [BitVec.toNat_udiv]; exact Nat.mod_eq_of_lt (lt_of_le_of_lt (Nat.div_le_self _ _) a.isLt)
  have e2 : BitVec.ofNat w (a.toNat % b.toNat) = a % b := by
    apply BitVec.eq_of_toNat_eq; simp [BitVec.toNat_umod]; exact Nat.mod_eq_of_lt (lt_of_le_of_lt (Nat.mod_le _ _) a.isLt)
  rw [e1, e2] at h
  simp only [BitVec.ofNat_toNat, BitVec.setWidth_eq] at h
  generalize a / b = q at *
  generalize a % b = r at *
  rw [← h]; ring

/-- The loop invariant of R160. -/
theorem euclidLoop_spec {w} (x : BitVec w) : ∀ fuel (a b y y1 : BitVec w), b.toNat ≤ fuel → a = y * x → b = y1 * x →
   (euclidLoop fuel a b y y1).1.toNat = Nat.gcd a.toNat b.toNat ∧ (euclidLoop fuel a b y y1).1 = (euclidLoop fuel a b y y1).2 * x := by
  intro fuel; induction fuel with
  | zero =>
    intro a b y y1 h ha hb
    simp [euclidLoop, show b.toNat = 0 by omega, ha]
  | succ n ih =>
    intro a b y y1 h ha hb
    unfold euclidLoop
    split
    · rename_i h0; subst h0; simp [ha]
    · rename_i h0
      have hpos : 0 < b.toNat := Nat.pos_of_ne_zero fun e => h0 (BitVec.eq_of_toNat_eq (by simpa using e))
      have hlt : (a % b).toNat < b.toNat := by rw [BitVec.toNat_umod]; exact Nat.mod_lt _ hpos
      have hm : a % b = (y - a/b*y1) * x := by
        rw [bv_mod]; generalize a / b = q; rw [ha, hb]; ring
      obtain ⟨h1, h2⟩ := ih b (a % b) y1 (y - a/b*y1) (by omega) hb hm
      refine ⟨?_, h2⟩
      rw [h1, BitVec.toNat_umod, Nat.gcd_comm, ← Nat.gcd_rec, Nat.gcd_comm]

theorem one_toNat {w} (hw : 0 < w) : (1 : BitVec w).toNat = 1 := by
  show 1 % 2^w = 1
  exact Nat.mod_eq_of_lt (Nat.one_lt_two_pow (by omega))

/-- `InvOdd_W` of an odd word gives an inverse. -/
theorem invOdd_spec {w} (hw : 0 < w) (b : BitVec w) (hb : b.toNat % 2 = 1) : ∃ y, invOdd b = some y ∧ y * b = 1 := by
  have hpos : 0 < b.toNat := by omega
  set r := 2^w % b.toNat with hr
  have hrlt : r < b.toNat := Nat.mod_lt _ hpos
  set q := BitVec.ofNat w (2^w / b.toNat) with hq
  have hB : 0 - q * b = BitVec.ofNat w r := by
    have h : BitVec.ofNat w (b.toNat * (2^w / b.toNat) + r) = 0 := by
      rw [hr, Nat.div_add_mod]; apply BitVec.eq_of_toNat_eq; rw [BitVec.toNat_ofNat, Nat.mod_self]; rfl
    rw [bv_ofNat_add, bv_ofNat_mul, ← hq] at h
    simp only [BitVec.ofNat_toNat, BitVec.setWidth_eq] at h
    have : (0 : BitVec w) = b * q + BitVec.ofNat w r := h.symm
    rw [this]; ring
  have hBn : (0 - q*b).toNat = r := by
    rw [hB, BitVec.toNat_ofNat, Nat.mod_eq_of_lt (hrlt.trans b.isLt)]
  obtain ⟨h1, h2⟩ := euclidLoop_spec b b.toNat b (0 - q*b) 1 (0 - q) (by omega) (by ring) (by ring)
  have hg : Nat.gcd b.toNat (0 - q*b).toNat = 1 := by
    rw [hBn, hr, Nat.gcd_comm, ← Nat.gcd_rec, Nat.gcd_comm]
    exact Nat.Coprime.pow_left _ ((Nat.coprime_two_left).2 (Nat.odd_iff.2 hb))
  rw [hg] at h1
  have h1' : (euclidLoop b.toNat b (0 - q*b) 1 (0 - q)).1 = 1 := by
    apply BitVec.eq_of_toNat_eq; rw [h1]; simp; rw [Nat.mod_eq_of_lt]; exact Nat.one_lt_two_pow (by omega)
  refine ⟨(euclidLoop b.toNat b (0 - q*b) 1 (0 - q)).2, ?_, ?_⟩
  · unfold invOdd; simp only [← hq]; rw [if_pos h1']
  · rw [← h2, h1']

/-- A word with an inverse is odd. -/
theorem odd_of_mul {w} (hw : 0 < w) {y b : BitVec w} (h : y * b = 1) : y.toNat % 2 = 1 := by
  have := congrArg BitVec.toNat h
  rw [BitVec.toNat_mul] at this
  have e : (1 : BitVec w).toNat = 1 := one_toNat hw
  rw [e] at this
  have h2 : (y.toNat * b.toNat % 2^w) % 2 = 1 % 2 := by rw [this]
  rw [Nat.mod_mod_of_dvd _ (dvd_pow_self 2 (by omega)), Nat.mul_mod] at h2
  rcases Nat.mod_two_eq_zero_or_one y.toNat with h | h
  · simp [h] at h2
  · exact h

theorem mul_mod_one {w} (hw : 0 < w) {y b : BitVec w} (h : y * b = 1) : (y.toNat * b.toNat) % 2^w = 1 := by
  rw [← BitVec.toNat_mul, h]; exact one_toNat hw

/-- `ctz` of a nonzero number. -/
theorem ctzNat_spec : ∀ fuel v, 0 < v → v < 2^fuel →
    ctzNat fuel v < fuel ∧ 2^(ctzNat fuel v) ∣ v ∧ v / 2^(ctzNat fuel v) % 2 = 1 := by
  intro fuel; induction fuel with
  | zero => intro v h1 h2; simp at h2; omega
  | succ n ih =>
    intro v h1 h2
    unfold ctzNat
    split
    · simpa
    · obtain ⟨a, ⟨k, b⟩, c⟩ := ih (v/2) (by omega) (by rw [pow_succ] at h2; omega)
      refine ⟨by omega, ?_, ?_⟩
      · refine ⟨k, ?_⟩; rw [pow_succ, mul_assoc, mul_comm 2 k, ← mul_assoc, ← b]; omega
      · rw [pow_succ', ← Nat.div_div_eq_div_mul]; exact c

/-- A nonzero word is an odd part times a power of two. -/
theorem oddPart {w} (b : BitVec w) (h : b ≠ 0) :
    ctz b < w ∧ 2^(ctz b) ∣ b.toNat ∧ (b >>> ctz b).toNat = b.toNat / 2^ctz b ∧ b.toNat / 2^ctz b % 2 = 1 := by
  have hpos : 0 < b.toNat := Nat.pos_of_ne_zero fun e => h (BitVec.eq_of_toNat_eq (by simpa using e))
  obtain ⟨a, b', c⟩ := ctzNat_spec w b.toNat hpos b.isLt
  exact ⟨a, b', by simp [Nat.shiftRight_eq_div_pow], c⟩

/-- The end of the four inverse commands on an odd word. -/
theorem finish_spec {w} (hw : 0 < w) (b : BitVec w) (hb : b.toNat % 2 = 1) (k : Nat) (s : State) :
    ∃ y, y * b = 1 ∧
      finishInverse b k s = complete { s with res0 := y.setWidth 64, res1 := BitVec.ofNat 64 k } := by
  obtain ⟨y, h1, h2⟩ := invOdd_spec hw b hb
  exact ⟨y, h2, by simp [finishInverse, h1]⟩

theorem upper_iff (a : Word) : upperHalfSet a = true ↔ 2^32 ≤ a.toNat := by
  have := a.isLt
  simp only [upperHalfSet, bne_iff_ne, ne_eq, ← BitVec.toNat_inj]
  simp [Nat.shiftRight_eq_div_pow];

theorem lower_toNat (a : Word) (h : a.toNat < 2^32) : (lowerHalf a).toNat = a.toNat := by
  simp [lowerHalf]; omega

theorem completedFrom_results (s : State) (r0 r1) :
    CompletedFrom s (({ s with res0 := r0, res1 := r1 } : State).completed) :=
  completedFrom ⟨rfl,rfl,rfl,rfl,rfl,rfl,rfl,rfl,rfl,rfl,rfl⟩

end Sys2Proof.Machine
end

