-- ==== Sys2Proof/Laws/PerInstr.lean ====
section
/-! SUPPORT. The per-instruction families: one lemma per constructor of `Instr`. -/

namespace Sys2Proof.Laws.EncodingFields

/-- The CMD value of a command has RSVH and RSV zero, and its OPC and W are those of the command's row (R70, R75). -/
def Statement (i : Instr) : Prop :=
  fieldRsvh (encode i) = 0 ∧ fieldRsv (encode i) = 0 ∧ ⟨fieldOpc (encode i), fieldW (encode i), i⟩ ∈ opcodeMap

theorem new : Statement .new := by unfold Statement; decide
theorem resize : Statement .resize := by unfold Statement; decide
theorem shrink : Statement .shrink := by unfold Statement; decide
theorem clean : Statement .clean := by unfold Statement; decide
theorem rdlimb : Statement .rdlimb := by unfold Statement; decide
theorem wrlimb : Statement .wrlimb := by unfold Statement; decide
theorem setbit : Statement .setbit := by unfold Statement; decide
theorem unsetbit : Statement .unsetbit := by unfold Statement; decide
theorem forcebit : Statement .forcebit := by unfold Statement; decide
theorem isbitset : Statement .isbitset := by unfold Statement; decide
theorem divmod : Statement .divmod := by unfold Statement; decide
theorem modinvW32 : Statement .modinvW32 := by unfold Statement; decide
theorem modinvW64 : Statement .modinvW64 := by unfold Statement; decide
theorem invoddW32 : Statement .invoddW32 := by unfold Statement; decide
theorem invoddW64 : Statement .invoddW64 := by unfold Statement; decide

end Sys2Proof.Laws.EncodingFields
end

