-- ==== Sys2Proof/Laws/Turn.lean ====
section
/-! SUPPORT. Whose turn it is, and what using a turn up changes (R9, R37). -/

namespace Sys2Proof.Machine

theorem turn_of_schedule {s : State} {t : Turn} {rest : List Turn} (h : s.schedule = t :: rest) : s.turn = t := by
  simp [State.turn, h]

/-- With nothing scheduled, the block moves exactly when a command is in flight and its LATENCY has passed. -/
theorem turn_of_no_schedule {s : State} (h : s.schedule = []) :
    s.turn = if s.status.busy && s.latency == 0 then .block else .host := by
  simp [State.turn, h]

/-- A turn that the schedule lists does not count against LATENCY, nor does the block's own. -/
theorem popTurn_of_block {s : State} (h : s.turn = .block) :
    s.popTurn = { s with schedule := s.schedule.tail } := by
  unfold State.popTurn State.turnCounts
  cases hs : s.schedule with
  | nil =>
    rw [turn_of_no_schedule hs] at h
    split at h
    · rename_i hb
      simp only [Bool.and_eq_true, beq_iff_eq] at hb
      simp [hb.2]
    · cases h
  | cons t rest => simp

/-- How far a command in flight is from its completion step: the turns listed and the LATENCY left. -/
theorem popTurn_measure {s : State} (hb : s.status.busy = true) (h : s.turn = .host) :
    s.popTurn.schedule.length + s.popTurn.latency + 1 = s.schedule.length + s.latency := by
  cases hs : s.schedule with
  | nil =>
    rw [turn_of_no_schedule hs, hb] at h
    have : s.latency ≠ 0 := by rintro h0; simp [h0] at h
    simp [State.turnCounts, hs, hb]; omega
  | cons t rest => simp [State.turnCounts, hs]; omega

end Sys2Proof.Machine
end

