-- ==== Sys2Proof/Tests/Slice0.lean ====
section
/-! SUPPORT. Tests of one step each, with expected results from 95_test_vectors.md (the id stands in each docstring), the
smoke tests of the static checks, and a witness for the hypotheses of every obligation. -/

namespace Sys2Proof.Tests

open Sys2Proof Sys2Proof.Machine

/-! ### Decoding: every command's word written out field by field as RSVH, RSV, W, OPC (30_encoding.md R70, R75) -/

theorem test_decode_new : decode (0#32 ++ 0#23 ++ 0b0#1 ++ 0x01#8) = .ok .new := by decide
theorem test_decode_resize : decode (0#32 ++ 0#23 ++ 0b0#1 ++ 0x02#8) = .ok .resize := by decide
theorem test_decode_shrink : decode (0#32 ++ 0#23 ++ 0b0#1 ++ 0x03#8) = .ok .shrink := by decide
theorem test_decode_clean : decode (0#32 ++ 0#23 ++ 0b0#1 ++ 0x04#8) = .ok .clean := by decide
theorem test_decode_rdlimb : decode (0#32 ++ 0#23 ++ 0b0#1 ++ 0x05#8) = .ok .rdlimb := by decide
theorem test_decode_wrlimb : decode (0#32 ++ 0#23 ++ 0b0#1 ++ 0x06#8) = .ok .wrlimb := by decide
theorem test_decode_setbit : decode (0#32 ++ 0#23 ++ 0b0#1 ++ 0x10#8) = .ok .setbit := by decide
theorem test_decode_unsetbit : decode (0#32 ++ 0#23 ++ 0b0#1 ++ 0x11#8) = .ok .unsetbit := by decide
theorem test_decode_forcebit : decode (0#32 ++ 0#23 ++ 0b0#1 ++ 0x12#8) = .ok .forcebit := by decide
theorem test_decode_isbitset : decode (0#32 ++ 0#23 ++ 0b0#1 ++ 0x13#8) = .ok .isbitset := by decide
theorem test_decode_divmod : decode (0#32 ++ 0#23 ++ 0b0#1 ++ 0x20#8) = .ok .divmod := by decide
theorem test_decode_modinvW32 : decode (0#32 ++ 0#23 ++ 0b0#1 ++ 0x30#8) = .ok .modinvW32 := by decide
theorem test_decode_modinvW64 : decode (0#32 ++ 0#23 ++ 0b1#1 ++ 0x30#8) = .ok .modinvW64 := by decide
theorem test_decode_invoddW32 : decode (0#32 ++ 0#23 ++ 0b0#1 ++ 0x31#8) = .ok .invoddW32 := by decide
theorem test_decode_invoddW64 : decode (0#32 ++ 0#23 ++ 0b1#1 ++ 0x31#8) = .ok .invoddW64 := by decide

/-- The highest bit of each reserved field alone, W with an opcode that takes none, and the unassigned opcodes beside
assigned ones. -/
theorem test_decode_refuses :
    decode (0x80000000#32 ++ 0#23 ++ 0b0#1 ++ 0x01#8) = .error .reservedHigh ∧
    decode (0#32 ++ 0x400000#23 ++ 0b0#1 ++ 0x01#8) = .error .reservedLow ∧
    decode (0#32 ++ 0#23 ++ 0b1#1 ++ 0x20#8) = .error .widthBit ∧
    ([0x00, 0x07, 0x0f, 0x14, 0x1f, 0x21, 0x2f, 0x32, 0xff].all fun o =>
      decide (decode (BitVec.ofNat 64 o) = .error .unassignedOpcode)) = true := by decide

/-- MODINV.W64 as a bus carries it, least significant byte first (R55), and a list that is no whole word. -/
theorem test_decode_bytes :
    decodeBytes [0x30, 0x01, 0, 0, 0, 0, 0, 0] = .ok .modinvW64 ∧
    decodeBytes [0x30, 0x01, 0, 0] = .error .notOneWord := by decide

/-! ### Smoke tests of the static checks: an ill-formed term for each -/

/-- Words of EP1 to EP4. -/
theorem test_commandWordWf_refuses :
    commandWordWf 0x0 = false ∧ commandWordWf 0x120 = false ∧ commandWordWf 0x210 = false ∧
    commandWordWf 0x100000010 = false ∧ commandWordWf 0x14 = false := by decide

/-- Unmapped, misaligned, and too narrow (R30, R54). -/
theorem test_accessWf_refuses : accessWf 0x48 8 = false ∧ accessWf 0x04 8 = false ∧ accessWf 0x08 4 = false := by decide

/-- R7. -/
theorem test_capMaxLegal_refuses : capMaxLegal 0 = false ∧ capMaxLegal (2 ^ 58) = false := by decide

/-- R8. -/
theorem test_baseLegal_refuses : baseLegal 64 = false := by decide

/-- A label declared twice, and a branch to a label that is not declared (R79). -/
theorem test_progWf_refuses :
    progWf [.label 0, .label 0] = false ∧ progWf [.label 0, .bnez 1 1] = false ∧ progWf [.label 0, .bnez 1 0] = true := by
  decide

/-! ### One step of each command -/

/-- A block with CAP_MAX = 8 and one command in flight. -/
def small (cap len : Word) (limbs : Memory) (i : Instr) (a0 a1 : Word) : State :=
  { State.reset with param := 8, cap := cap, len := len, limbs := limbs, cmd := encode i, arg0 := a0, arg1 := a1, status := ⟨true, false, false, .none⟩, pend := some ⟨encode i, a0, a1⟩ }

/-- STATUS, CAP, LEN and the first three limbs after one step. -/
def storageAfter (s : State) : Option (Word × Word × Word × List Word) :=
  match step s with
  | .next t => some (t.status.word, t.cap, t.len, [Memory.read t.limbs 0, Memory.read t.limbs 1, Memory.read t.limbs 2])
  | .fault _ | .refused _ => none

/-- STATUS, RES0 and RES1 after one step. -/
def resultsAfter (s : State) : Option (Word × Word × Word) :=
  match step s with
  | .next t => some (t.status.word, t.res0, t.res1)
  | .fault _ | .refused _ => none

/-- LS1, on a store that holds limbs. -/
theorem test_new : storageAfter (small 1 1 [(0, 7), (2, 9)] .new 3 0) = some (0x2, 3, 0, [0, 0, 0]) := by decide
/-- LS3. -/
theorem test_new_fault : storageAfter (small 2 1 [(0, 7)] .new 9 0) = some (0x204, 2, 1, [7, 0, 0]) := by decide
/-- LS5, on a store with a limb above CAP. -/
theorem test_resize : storageAfter (small 2 1 [(0, 7), (2, 9)] .resize 4 0) = some (0x2, 4, 1, [7, 0, 0]) := by decide
/-- LS7. -/
theorem test_resize_fault : storageAfter (small 4 2 [(1, 7)] .resize 1 0) = some (0x204, 4, 2, [0, 7, 0]) := by decide
/-- LS9. -/
theorem test_shrink : storageAfter (small 5 2 [(1, 7)] .shrink 0 0) = some (0x2, 2, 2, [0, 7, 0]) := by decide
/-- LS10. -/
theorem test_shrink_zero : storageAfter (small 3 0 [] .shrink 0 0) = some (0x2, 0, 0, [0, 0, 0]) := by decide
/-- LS11. -/
theorem test_clean : storageAfter (small 3 3 [(0, 7)] .clean 0 0) = some (0x2, 3, 1, [7, 0, 0]) := by decide
/-- LS12. -/
theorem test_clean_zero : storageAfter (small 2 2 [] .clean 0 0) = some (0x2, 2, 0, [0, 0, 0]) := by decide
/-- LS15. -/
theorem test_rdlimb : resultsAfter (small 2 2 [(0, 3), (1, 5)] .rdlimb 1 0) = some (0x2, 5, 0) := by decide
/-- LS17. -/
theorem test_rdlimb_fault : resultsAfter (small 2 0 [] .rdlimb 2 0) = some (0x204, 0, 0) := by decide
/-- LS18. -/
theorem test_wrlimb : storageAfter (small 2 0 [] .wrlimb 1 1) = some (0x2, 2, 2, [0, 1, 0]) := by decide
/-- LS20. -/
theorem test_wrlimb_zero : storageAfter (small 2 2 [(0, 3), (1, 5)] .wrlimb 1 0) = some (0x2, 2, 2, [3, 0, 0]) := by
  decide
/-- BA3. -/
theorem test_setbit : storageAfter (small 2 0 [] .setbit 127 0) = some (0x2, 2, 2, [0, 0x8000000000000000, 0]) := by decide
/-- BA4. -/
theorem test_setbit_fault : storageAfter (small 2 0 [] .setbit 128 0) = some (0x204, 2, 0, [0, 0, 0]) := by decide
/-- BA7. -/
theorem test_unsetbit : storageAfter (small 1 1 [(0, 5)] .unsetbit 2 0) = some (0x2, 1, 1, [1, 0, 0]) := by decide
/-- BA9. -/
theorem test_unsetbit_fault : storageAfter (small 2 1 [(0, 5)] .unsetbit 64 0) = some (0x304, 2, 1, [5, 0, 0]) := by decide
/-- BA12. -/
theorem test_forcebit : storageAfter (small 2 0 [] .forcebit 70 1) = some (0x2, 2, 2, [0, 0x40, 0]) := by decide
/-- BA17. -/
theorem test_forcebit_fault : storageAfter (small 2 0 [] .forcebit 128 2) = some (0x504, 2, 0, [0, 0, 0]) := by decide
/-- BA20. -/
theorem test_isbitset : resultsAfter (small 2 2 [(1, 1)] .isbitset 64 0) = some (0x2, 1, 0) := by decide
/-- BA21. -/
theorem test_isbitset_fault : resultsAfter (small 2 1 [(0, 1)] .isbitset 64 0) = some (0x304, 0, 0) := by decide
/-- SD4. -/
theorem test_divmod :
    storageAfter (small 2 2 [(0, 5), (1, 1)] .divmod 10 0) = some (0x2, 2, 1, [0x199999999999999a, 0, 0]) ∧
    resultsAfter (small 2 2 [(0, 5), (1, 1)] .divmod 10 0) = some (0x2, 1, 0) := by decide
/-- SD15. -/
theorem test_divmod_fault : storageAfter (small 2 2 [] .divmod 2 0) = some (0x404, 2, 1, [0, 0, 0]) := by decide
/-- MI4. -/
theorem test_invoddW32 : resultsAfter (small 0 0 [] .invoddW32 7 0) = some (0x2, 0xb6db6db7, 0) := by decide
/-- MI13. -/
theorem test_invoddW32_fault : resultsAfter (small 0 0 [] .invoddW32 0x100000003 0) = some (0x504, 0, 0) := by decide
/-- MI20. -/
theorem test_invoddW64 : resultsAfter (small 0 0 [] .invoddW64 0x123456789abcdef1 0) = some (0x2, 0x77b73d68b2cc5211, 0) := by
  decide
/-- MI23. -/
theorem test_invoddW64_fault : resultsAfter (small 0 0 [] .invoddW64 0x8000000000000000 0) = some (0x504, 0, 0) := by
  decide
/-- MI28. -/
theorem test_modinvW32 : resultsAfter (small 0 0 [] .modinvW32 0xfffffffe 0) = some (0x2, 0x7fffffff, 1) := by decide
/-- MI30. -/
theorem test_modinvW32_fault : resultsAfter (small 0 0 [] .modinvW32 0xffffffff00000000 0) = some (0x504, 0, 0) := by
  decide
/-- MI35. -/
theorem test_modinvW64 : resultsAfter (small 0 0 [] .modinvW64 0x8000000000000006 0) = some (0x2, 0x6aaaaaaaaaaaaaab, 1) := by
  decide
/-- MI36. -/
theorem test_modinvW64_fault : resultsAfter (small 0 0 [] .modinvW64 0 0) = some (0x504, 0, 0) := by decide

/-! ### The protocol (EP rows) -/

/-- The state reached by one step, or the same state. -/
def after (s : State) : State :=
  match step s with
  | .next t => t
  | .fault _ | .refused _ => s

/-- The small block, idle, with a host program that is one statement. -/
def idle (st : HostStmt) : State :=
  { small 2 1 [(0, 5)] .divmod 2 0 with status := ⟨false, false, false, .none⟩, pend := none, host := ⟨[st], 0, [], [], .running⟩ }

/-- The small block, with DIVMOD in flight, the host to move first. -/
def busy (st : HostStmt) : State :=
  { small 2 1 [(0, 5)] .divmod 2 0 with host := ⟨[st], 0, [], [], .running⟩, schedule := [.host] }

/-- The small block in the fault state. -/
def faulty (st : HostStmt) : State :=
  { idle st with status := ⟨false, false, true, .rangeViolation⟩ }

/-- EP14 and R36: an issue sets BUSY and latches both operands. -/
theorem test_issue :
    (after (idle (.cmd .setbit))).status.word = 0x1 ∧ (after (idle (.cmd .setbit))).pend = some ⟨0x10, 2, 0⟩ := by decide

/-- EP1. -/
theorem test_illegal_word :
    (after { small 2 1 [(0, 5)] .new 0 0 with cmd := 0, pend := some ⟨0, 0, 0⟩ }).status.word = 0x604 := by decide

/-- EP6 and EP7. -/
theorem test_collision :
    (after (busy (.cmd .new))).status.word = 0x704 ∧ (after (busy (.cmd .new))).cmd = 0x20 ∧
    (after (busy (.wr .arg0 (.lit 9)))).status.word = 0x704 ∧ (after (busy (.wr .arg0 (.lit 9)))).arg0 = 2 := by decide

/-- EP8. -/
theorem test_fault_ignores :
    (after (faulty (.cmd .new))).status.word = 0x304 ∧ (after (faulty (.wr .arg0 (.lit 9)))).arg0 = 2 := by decide

/-- EP11. -/
theorem test_reset_leaves_fault :
    (after { faulty .halt with schedule := [.reset] }).status.word = 0 ∧
    (after { faulty .halt with schedule := [.reset] }).cap = 0 := by decide

/-- R79, `wait`: it stays while BUSY = 1 and is left when BUSY = 0. -/
theorem test_wait : (after (busy .wait)).host.pos = 0 ∧ (after (idle .wait)).host.pos = 1 := by decide

/-- The block's first step after reset, with a word placed, is that word's completion. -/
theorem test_first_step : (after (State.reset.withFetchWord 64 0x31)).status.word = 0x504 ∧
    (after (State.reset.withFetchWord 64 0x3)).status.word = 0x2 := by decide

/-! ### Witnesses: a state and operands that meet the hypotheses of each obligation, clause by clause, at the bounds -/

/-- CAP = 2, LEN = 1, L = [5, 0], CAP_MAX = 8, with a command in flight: the state most witnesses use. -/
def held (i : Instr) (a0 a1 : Word) : State := small 2 1 [(0, 5)] i a0 a1

theorem held_pend (i : Instr) (a0 a1 : Word) : (held i a0 a1).pend = some ⟨encode i, a0, a1⟩ := rfl

theorem held_tailZero (i : Instr) (a0 a1 : Word) : (held i a0 a1).tailZero := by
  intro k h1 h2
  have h1 : 1 ≤ k := h1
  have h2 : k < 2 := h2
  obtain rfl : k = 1 := by omega
  rfl

theorem held_inv (i : Instr) (a0 a1 : Word) : (held i a0 a1).Inv where
  capMax_legal := by show 0 < (8 : Word).toNat ∧ (8 : Word).toNat < 2 ^ 58; decide
  pend_iff_busy := rfl
  latched := by rintro p h; cases h; rfl
  not_busy_and_fault := by simp [held, small]
  done_idle := by simp [held, small]
  err_iff_fault := by simp [held, small]
  lengths _ := by show (1 : Word).toNat ≤ (2 : Word).toNat ∧ (2 : Word).toNat ≤ (8 : Word).toNat; decide
  tail _ := held_tailZero i a0 a1
  limbs_wf := by show Memory.wf [(0, 5)]; decide
  limbs_physical := by rintro c h; simp only [held, small, List.mem_singleton] at h; subst h; show 0 < (8 : Word).toNat; decide
  vars_wf := by show Memory.wf []; decide

theorem witness_DecodeAcceptsExactlyTheTable : encode .invoddW64 = encode .invoddW64 := rfl

/-- Both ends of every unassigned range, W out of place, and the reserved bits. -/
theorem witness_IllegalWordsRaiseIllegalCommand :
    ([0x0, 0x7, 0xf, 0x14, 0x1f, 0x21, 0x2f, 0x32, 0xff, 0x120, 0x200, 0x8000000000000001].all fun c =>
      let s : State := { held .new 0 0 with pend := some ⟨c, 0, 0⟩ }
      decide (s.pend = some ⟨c, 0, 0⟩) &&
        match decode c with
        | .ok _ => false
        | .error _ => true) = true := by decide

theorem witness_BusBytesAreLittleEndian : (0 : Nat) < 8 ∧ (7 : Nat) < 8 := by decide

theorem witness_StepKeepsInvariant :
    (held .divmod 2 0).Inv ∧ ∃ t, step (held .divmod 2 0) = .next t := ⟨held_inv _ _ _, _, rfl⟩

theorem witness_ResetTurnRestoresBlock :
    ({ faulty .halt with schedule := [.reset] } : State).turn = .reset ∧
    ({ busy .halt with schedule := [.reset] } : State).turn = .reset := by decide

theorem witness_ResetTurnKeepsHostSide :
    ({ faulty .halt with schedule := [.reset, .host] } : State).schedule = .reset :: [.host] := rfl

theorem witness_HostWriteIssuesOrStores :
    (faulty .halt).status.fault = true ∧
    ((busy .halt).status.fault = false ∧ (busy .halt).status.busy = true) ∧
    ((idle .halt).status.fault = false ∧ (idle .halt).status.busy = false) := by decide

theorem witness_BusyWriteCollides : (busy .halt).status.fault = false ∧ (busy .halt).status.busy = true := by decide

theorem witness_ReadOnlyWriteHasNoEffect : HostReg.param = .res0 ∨ HostReg.param = .param := by decide

theorem witness_ReadsHaveNoSideEffect :
    ((idle .halt).status.busy = false) ∧ (busy .halt).status.busy = true := by decide

theorem witness_MappedOffsetReachesRegister :
    accessWf 0x00 8 = true ∧ accessWf 0x40 8 = true ∧ regAt 0x00 = some .cmd ∧ regAt 0x40 = some .param := by decide

/-- One offset for each way an access is undefined, at the bounds, and the first and last offset that is defined. -/
theorem witness_UndefinedAccessIsRefused :
    (0x00 < 0x80 ∧ 0x00 % 8 = 0 ∧ 0x00 < 0x48) ∧ (0x40 < 0x80 ∧ 0x40 % 8 = 0 ∧ 0x40 < 0x48) ∧
    ([(0x00, 4), (0x40, 1), (0x07, 8), (0x41, 8), (0x48, 8), (0x78, 8), (0x7f, 8)].all fun c : Nat × Nat =>
      decide (c.1 < 0x80) && (c.2 != 8 || c.1 % 8 != 0 || decide (0x48 ≤ c.1))) = true := by decide

/-- The first address above the window, and the last below it where BASE, which is free, is not 0. -/
theorem witness_ForeignAccessIsRefused :
    Config.base + 0x7f < Config.base + 0x80 ∧ (0 < Config.base → Config.base - 1 < Config.base) := by omega

/-- A command whose LATENCY has two turns left, one with none left, and a listed turn. -/
theorem witness_IssueDrawsOpenLatency :
    ((idle .halt).status.fault = false ∧ (idle .halt).status.busy = false) ∧
    (({ held .divmod 2 0 with latency := 2 } : State).schedule = [] ∧
      ({ held .divmod 2 0 with latency := 2 } : State).latency ≠ 0) ∧
    ((held .divmod 2 0).schedule = [] ∧ (held .divmod 2 0).status.busy = true ∧ (held .divmod 2 0).latency = 0) ∧
    (busy .halt).schedule = .host :: [] := by decide

/-- R9: while LATENCY has turns left, `wait` reads BUSY = 1 and stays; when none is left, the command completes. -/
theorem test_latency :
    (after { held .divmod 2 0 with latency := 1, host := ⟨[.wait], 0, [], [], .running⟩ }).status.word = 0x1 ∧
    (after (after { held .divmod 2 0 with latency := 1, host := ⟨[.wait], 0, [], [], .running⟩ })).status.word = 0x2 := by
  decide

/-- On the host's turn and on the block's. -/
theorem witness_FaultStateLeftOnlyByReset :
    (faulty (.cmd .new)).status.fault = true ∧ (faulty (.cmd .new)).status.busy = false ∧
    (faulty (.cmd .new)).turn = .host ∧ (∃ t, step (faulty (.cmd .new)) = .next t) ∧
    ({ faulty .halt with schedule := [.block] } : State).turn = .block ∧
    (∃ t, step ({ faulty .halt with schedule := [.block] } : State) = .next t) :=
  ⟨rfl, rfl, rfl, ⟨_, rfl⟩, rfl, ⟨_, rfl⟩⟩

theorem witness_StepRunsLatchedCommand :
    (held .divmod 2 0).turn = .block ∧ (held .divmod 2 0).status.fault = false ∧
    (held .divmod 2 0).status.busy = true ∧ (held .divmod 2 0).pend = some ⟨0x20, 2, 0⟩ ∧
    decode 0x20 = .ok .divmod := by decide

/-- With a command's word latched, and with an illegal one. -/
theorem witness_CompletionStepEndsCommand :
    ((held .divmod 2 0).pend = some ⟨0x20, 2, 0⟩ ∧ (held .divmod 2 0).status.fault = false) ∧
    (({ held .divmod 2 0 with pend := some ⟨0, 2, 0⟩ } : State).pend = some ⟨0, 2, 0⟩ ∧ decode 0 ≠ .ok .divmod) := by
  decide

theorem witness_IdleBlockKeepsItsState : (idle .halt).status.busy = false := by decide

/-- Two states that differ in a limb at index CAP. -/
theorem witness_UnallocatedLimbsAreNeverObservable :
    (held .divmod 2 0).Inv ∧
    SameButUnallocated (held .divmod 2 0) { held .divmod 2 0 with limbs := [(0, 5), (2, 9)] } ∧
    held .divmod 2 0 ≠ { held .divmod 2 0 with limbs := [(0, 5), (2, 9)] } := by
  refine ⟨held_inv _ _ _, ⟨rfl, fun i hi => ?_⟩, by decide⟩
  have hi : i < 2 := hi
  obtain rfl | rfl : i = 0 ∨ i = 1 := by omega
  · rfl
  · rfl

theorem witness_HostTurnRunsItsStatement :
    (busy .wait).turn = .host ∧ (busy .wait).host.mode = .running ∧
    (busy .wait).host.prog[(busy .wait).host.pos]? = some .wait := by decide

/-- A completion that changes RES0, and a reset that changes CAP. -/
theorem witness_OnlyTheseStepsChangeResults :
    (∃ t, step (held .divmod 2 0) = .next t ∧ ¬ DataSame (held .divmod 2 0) t) ∧
    (∃ t, step { held .divmod 2 0 with schedule := [.reset] } = .next t ∧
      ¬ DataSame { held .divmod 2 0 with schedule := [.reset] } t) :=
  ⟨⟨_, rfl, fun h => absurd h.res0 (by decide)⟩, ⟨_, rfl, fun h => absurd h.cap (by decide)⟩⟩

theorem witness_BusyCommandEndsUnlessRefused : (held .divmod 2 0).Inv ∧ (held .divmod 2 0).status.busy = true :=
  ⟨held_inv _ _ _, rfl⟩

theorem witness_CommandsKeepOperandRegisters :
    (∃ t, exec .divmod (held .divmod 2 0) = .next t) ∧ ∃ t, exec .divmod (held .divmod 0 0) = .next t :=
  ⟨⟨_, rfl⟩, ⟨_, rfl⟩⟩

/-- The code a command's fault shows. -/
def codeOf (i : Instr) (s : State) : FaultCode :=
  match exec i s with
  | .next t => t.status.err
  | .fault _ | .refused _ => .none

/-- Every code and every command of each list. -/
theorem witness_FaultCodesRaisedBy :
    (∀ i a0 a1, (held i a0 a1).status.err = .none) ∧
    codeOf .setbit (held .setbit 128 0) = .capacityViolation ∧
    codeOf .forcebit (held .forcebit 128 1) = .capacityViolation ∧
    codeOf .rdlimb (held .rdlimb 2 0) = .capacityViolation ∧ codeOf .wrlimb (held .wrlimb 2 0) = .capacityViolation ∧
    codeOf .new (held .new 9 0) = .capacityViolation ∧ codeOf .resize (held .resize 0 0) = .capacityViolation ∧
    codeOf .unsetbit (held .unsetbit 64 0) = .rangeViolation ∧ codeOf .isbitset (held .isbitset 64 0) = .rangeViolation ∧
    codeOf .divmod (small 2 2 [] .divmod 2 0) = .invariantViolation ∧
    codeOf .clean (held .clean 0 0) = .none := by
  refine ⟨fun _ _ _ => rfl, ?_⟩
  decide

/-- The six causes at their bounds, and the nearest operands that are none. -/
theorem witness_OperandViolationCauses :
    codeOf .divmod (held .divmod 0 0) = .operandViolation ∧ codeOf .divmod (held .divmod 1 0) = .none ∧
    codeOf .invoddW32 (held .invoddW32 0xfffffffe 0) = .operandViolation ∧
    codeOf .invoddW32 (held .invoddW32 0x100000001 0) = .operandViolation ∧
    codeOf .invoddW32 (held .invoddW32 0xffffffff 0) = .none ∧
    codeOf .invoddW64 (held .invoddW64 0 0) = .operandViolation ∧ codeOf .invoddW64 (held .invoddW64 1 0) = .none ∧
    codeOf .modinvW32 (held .modinvW32 0 0) = .operandViolation ∧
    codeOf .modinvW32 (held .modinvW32 0x100000000 0) = .operandViolation ∧
    codeOf .modinvW32 (held .modinvW32 0x80000000 0) = .none ∧
    codeOf .modinvW64 (held .modinvW64 0 0) = .operandViolation ∧ codeOf .modinvW64 (held .modinvW64 1 0) = .none ∧
    codeOf .forcebit (held .forcebit 0 2) = .operandViolation ∧ codeOf .forcebit (held .forcebit 0 1) = .none := by
  decide

/-- A precise fault, and DIVMOD's fault after its writes. -/
theorem witness_CommandFaultsArePrecise :
    ((held .new 9 0).status.fault = false ∧ ∃ t, completion (held .new 9 0) = .next t ∧ t.status.fault = true ∧
      t.status.err ≠ .invariantViolation) ∧
    ((small 2 2 [] .divmod 2 0).status.fault = false ∧ ∃ t, completion (small 2 2 [] .divmod 2 0) = .next t ∧
      t.status.fault = true ∧ t.status.err = .invariantViolation) :=
  ⟨⟨rfl, _, rfl, rfl, by decide⟩, ⟨rfl, _, rfl, rfl, rfl⟩⟩

theorem witness_UnusedOperandsAreNotRead :
    (Instr.new ≠ .wrlimb ∧ Instr.new ≠ .forcebit) ∧ (Instr.shrink = .shrink ∨ Instr.shrink = .clean) := by decide

theorem witness_NewAllocatesZeroedLimbs :
    ((held .new 9 0).pend = some ⟨1, 9, 0⟩ ∧ (held .new 9 0).capMax < (9 : Word).toNat) ∧
    ((held .new 8 0).pend = some ⟨1, 8, 0⟩ ∧ (8 : Word).toNat ≤ (held .new 8 0).capMax) := by decide

theorem witness_ResizeMovesCapacity :
    ((held .resize 9 0).pend = some ⟨2, 9, 0⟩ ∧ (held .resize 9 0).capMax < (9 : Word).toNat) ∧
    ((held .resize 0 0).pend = some ⟨2, 0, 0⟩ ∧ (0 : Word).toNat < (held .resize 0 0).len.toNat) ∧
    ((held .resize 1 0).pend = some ⟨2, 1, 0⟩ ∧ (1 : Word).toNat ≤ (held .resize 1 0).capMax ∧
      (held .resize 1 0).len.toNat ≤ (1 : Word).toNat ∧ (held .resize 1 0).tailZero ∧
      (1 : Word).toNat ≤ 1 ∧ 1 < (held .resize 1 0).cap.toNat) ∧
    ((8 : Word).toNat ≤ (held .resize 8 0).capMax ∧ (held .resize 8 0).len.toNat ≤ (8 : Word).toNat) :=
  ⟨by decide, by decide, ⟨by decide, by decide, by decide, held_tailZero _ _ _, by decide, by decide⟩, by decide⟩

theorem witness_ShrinkTrimsCapacity : (held .shrink 0 0).pend = some ⟨3, 0, 0⟩ := by decide

theorem witness_CleanNormalisesLength : (held .clean 0 0).pend = some ⟨4, 0, 0⟩ := by decide

theorem witness_RdlimbReturnsLimb :
    ((held .rdlimb 2 0).pend = some ⟨5, 2, 0⟩ ∧ (held .rdlimb 2 0).cap.toNat ≤ (2 : Word).toNat) ∧
    ((held .rdlimb 1 0).pend = some ⟨5, 1, 0⟩ ∧ (1 : Word).toNat < (held .rdlimb 1 0).cap.toNat ∧
      (held .rdlimb 1 0).tailZero ∧ (held .rdlimb 1 0).len.toNat ≤ (1 : Word).toNat) :=
  ⟨by decide, by decide, by decide, held_tailZero _ _ _, by decide⟩

theorem witness_WrlimbStoresLimb :
    ((held .wrlimb 2 7).pend = some ⟨6, 2, 7⟩ ∧ (held .wrlimb 2 7).cap.toNat ≤ (2 : Word).toNat) ∧
    ((held .wrlimb 1 7).pend = some ⟨6, 1, 7⟩ ∧ (1 : Word).toNat < (held .wrlimb 1 7).cap.toNat) := by decide

theorem witness_BitPositionSplits : (0 : Word).toNat < 1 * 64 ∧ (127 : Word).toNat < 2 * 64 := by decide

theorem witness_SetbitSetsOneBit :
    ((held .setbit 128 0).pend = some ⟨0x10, 128, 0⟩ ∧ (held .setbit 128 0).cap.toNat * 64 ≤ (128 : Word).toNat) ∧
    ((held .setbit 127 0).pend = some ⟨0x10, 127, 0⟩ ∧ (127 : Word).toNat < (held .setbit 127 0).cap.toNat * 64 ∧
      (held .setbit 127 0).tailZero) :=
  ⟨by decide, by decide, by decide, held_tailZero _ _ _⟩

theorem witness_UnsetbitClearsOneBit :
    ((held .unsetbit 64 0).pend = some ⟨0x11, 64, 0⟩ ∧ (held .unsetbit 64 0).len.toNat * 64 ≤ (64 : Word).toNat) ∧
    ((held .unsetbit 63 0).pend = some ⟨0x11, 63, 0⟩ ∧ (63 : Word).toNat < (held .unsetbit 63 0).len.toNat * 64) := by
  decide

theorem witness_ForcebitAssignsOneBit :
    ((held .forcebit 128 2).pend = some ⟨0x12, 128, 2⟩ ∧ 1 < (2 : Word).toNat) ∧
    ((held .forcebit 128 1).pend = some ⟨0x12, 128, 1⟩ ∧ (1 : Word).toNat ≤ 1 ∧
      (held .forcebit 128 1).cap.toNat * 64 ≤ (128 : Word).toNat) ∧
    ((held .forcebit 127 1).pend = some ⟨0x12, 127, 1⟩ ∧ (127 : Word).toNat < (held .forcebit 127 1).cap.toNat * 64) := by
  decide

theorem witness_IsbitsetReadsOneBit :
    ((held .isbitset 64 0).pend = some ⟨0x13, 64, 0⟩ ∧ (held .isbitset 64 0).len.toNat * 64 ≤ (64 : Word).toNat) ∧
    ((held .isbitset 63 0).pend = some ⟨0x13, 63, 0⟩ ∧ (63 : Word).toNat < (held .isbitset 63 0).len.toNat * 64) := by
  decide

theorem witness_BitAccessLaws :
    (held .setbit 0 0).lengthsOrdered ∧ (127 : Word).toNat < (held .setbit 0 0).cap.toNat * 64 ∧
    (63 : Word).toNat < (held .setbit 0 0).len.toNat * 64 := by
  unfold State.lengthsOrdered; decide

/-- The divisors 0, 1 and 2, and both ends of the last clause. -/
theorem witness_DivmodDividesInPlace :
    (held .divmod 0 0).pend = some ⟨0x20, 0, 0⟩ ∧ (held .divmod 1 0).pend = some ⟨0x20, 1, 0⟩ ∧
    ((held .divmod 2 0).pend = some ⟨0x20, 2, 0⟩ ∧ 2 ≤ (2 : Word).toNat ∧
      codeOf .divmod (held .divmod 2 0) = .none) ∧
    ((small 2 2 [] .divmod 2 0).pend = some ⟨0x20, 2, 0⟩ ∧
      codeOf .divmod (small 2 2 [] .divmod 2 0) = .invariantViolation) := by decide

theorem witness_DivmodResultLaw :
    (held .divmod 2 0).pend = some ⟨0x20, 2, 0⟩ ∧ (held .divmod 2 0).status.fault = false ∧
    ∃ t, exec .divmod (held .divmod 2 0) = .next t ∧ t.status.fault = false := ⟨rfl, rfl, _, rfl, rfl⟩

theorem witness_InvariantTrapExactlyWhen :
    ((held .divmod 2 0).pend = some ⟨0x20, 2, 0⟩ ∧ (held .divmod 2 0).status.fault = false ∧ 2 ≤ (2 : Word).toNat ∧
      (held .divmod 2 0).normalised = true) ∧
    ((small 2 2 [] .divmod 2 0).status.fault = false ∧ (small 2 2 [] .divmod 2 0).len = 2 ∧
      Memory.read (small 2 2 [] .divmod 2 0).limbs 0 = 0 ∧ Memory.read (small 2 2 [] .divmod 2 0).limbs 1 = 0) := by
  decide

/-- Five is 101 in base 2. -/
theorem witness_RepeatedDivisionYieldsDigits :
    (held .divmod 2 0).status.fault = false ∧ (held .divmod 2 0).normalised = true ∧ 2 ≤ (2 : Word).toNat ∧
    0 < (held .divmod 2 0).value ∧
    (divideTimes 2 3 (held .divmod 2 0)).map (fun r => (r.1, r.2.len)) = some ([1, 0, 1], 0) := by decide

theorem witness_CleanThenDivmodCompletes :
    (small 2 2 [] .clean 0 0).pend = some ⟨4, 0, 0⟩ ∧ (small 2 2 [] .clean 0 0).status.fault = false ∧
    2 ≤ (2 : Word).toNat := by decide

theorem witness_NormalisedIsZeroExactlyAtLengthZero :
    ((held .clean 0 0).normalised = true ∧ (held .clean 0 0).value = 5) ∧
    ((small 2 0 [] .clean 0 0).normalised = true ∧ (small 2 0 [] .clean 0 0).value = 0) := by decide

theorem witness_InvOddGivesTheUniqueInverse :
    ((1#32).toNat % 2 = 1 ∧ (0xffffffff#32).toNat % 2 = 1) ∧
    ((1#64).toNat % 2 = 1 ∧ (0xffffffffffffffff#64).toNat % 2 = 1) ∧
    (0x3#64 * 0xaaaaaaaaaaaaaaab#64 = 1) := by decide

theorem witness_InvoddW32GivesInverse :
    ((held .invoddW32 0x100000000 0).pend = some ⟨0x31, 0x100000000, 0⟩ ∧ 2 ^ 32 ≤ (0x100000000 : Word).toNat) ∧
    ((held .invoddW32 0 0).pend = some ⟨0x31, 0, 0⟩ ∧ (0 : Word).toNat % 2 = 0) ∧
    ((held .invoddW32 0xffffffff 0).pend = some ⟨0x31, 0xffffffff, 0⟩ ∧ (0xffffffff : Word).toNat < 2 ^ 32 ∧
      (0xffffffff : Word).toNat % 2 = 1) := by decide

theorem witness_InvoddW64GivesInverse :
    ((held .invoddW64 0 0).pend = some ⟨0x131, 0, 0⟩ ∧ (0 : Word).toNat % 2 = 0) ∧
    ((held .invoddW64 0xffffffffffffffff 0).pend = some ⟨0x131, 0xffffffffffffffff, 0⟩ ∧
      (0xffffffffffffffff : Word).toNat % 2 = 1) := by decide

theorem witness_ModinvW32GivesOddPartInverse :
    ((held .modinvW32 0x100000000 0).pend = some ⟨0x30, 0x100000000, 0⟩ ∧ 2 ^ 32 ≤ (0x100000000 : Word).toNat) ∧
    (held .modinvW32 0 0).pend = some ⟨0x30, 0, 0⟩ ∧
    ((held .modinvW32 0x80000000 0).pend = some ⟨0x30, 0x80000000, 0⟩ ∧ (0x80000000 : Word).toNat < 2 ^ 32 ∧
      (0x80000000 : Word) ≠ 0) := by decide

theorem witness_ModinvW64GivesOddPartInverse :
    (held .modinvW64 0 0).pend = some ⟨0x130, 0, 0⟩ ∧
    ((held .modinvW64 0x8000000000000000 0).pend = some ⟨0x130, 0x8000000000000000, 0⟩ ∧
      (0x8000000000000000 : Word) ≠ 0) := by decide

theorem witness_WithoutStorageLimbCommandsTrap :
    (small 0 0 [] .forcebit 0 1).pend = some ⟨0x12, 0, 1⟩ ∧ (small 0 0 [] .forcebit 0 1).cap = 0 ∧
    (small 0 0 [] .forcebit 0 1).len = 0 ∧ (1 : Word).toNat ≤ 1 := by decide

theorem witness_HostStatementsDoAsWritten : labelPos 0 [.halt, .label 0] = some 1 := by decide

end Sys2Proof.Tests
end

section
/-! SUPPORT. The state after reset (R42) and the register window (R30, R31, R36, R41, R54): the rules of one access, and
the statements settled by them. -/

namespace Sys2Proof.Machine

/-! ### Reset (R7, R42) -/

/-- The static check of CAP_MAX is the range of R7. -/
theorem capMaxLegal_iff {n : Nat} : capMaxLegal n = true ↔ 0 < n ∧ n < 2 ^ 58 := by
  simp [capMaxLegal]

/-- Whatever the free seed is, CAP_MAX is in the range of R7. -/
theorem capMaxLegal_capMax : capMaxLegal Config.capMax = true := by
  have hlt : Config.capMaxSeed % (2 ^ 58 - 1) < 2 ^ 58 - 1 := Nat.mod_lt _ (by decide)
  rw [capMaxLegal_iff, Config.capMax]
  omega

/-- PARAM is wide enough for CAP_MAX, so after reset it shows CAP_MAX itself (R29). -/
theorem State.reset_capMax : State.reset.capMax = Config.capMax := by
  obtain ⟨-, hlt⟩ := capMaxLegal_iff.mp capMaxLegal_capMax
  exact Nat.mod_eq_of_lt (by omega)

/-- Settles O7: only PARAM depends on a free constant, and CAP_MAX fits in it. -/
theorem resetRegistersAsStated : Obligations.ResetRegistersAsStated := by
  have hlegal : capMaxLegal State.reset.capMax = true := by
    rw [State.reset_capMax]; exact capMaxLegal_capMax
  exact ⟨rfl, rfl, rfl, rfl, rfl, by decide, rfl, rfl, State.reset_capMax, hlegal, rfl⟩

/-! ### Writes (R31, R36) -/

/-- The fault state ignores a guarded write (R206). -/
theorem guardedWrite_of_fault (effect : State → State) {s : State} (hf : s.status.fault = true) :
    guardedWrite effect s = s := by
  simp [guardedWrite, hf]

/-- A guarded write to a busy block collides (R207). -/
theorem guardedWrite_of_busy (effect : State → State) {s : State} (hf : s.status.fault = false)
    (hb : s.status.busy = true) : guardedWrite effect s = s.collided := by
  simp [guardedWrite, hf, hb]

/-- A guarded write to an idle block has its effect (R36). -/
theorem guardedWrite_of_idle (effect : State → State) {s : State} (hf : s.status.fault = false)
    (hb : s.status.busy = false) : guardedWrite effect s = effect s := by
  simp [guardedWrite, hf, hb]

/-- Settles O13: CMD, ARG0 and ARG1 are the guarded writes, and the guard has R36's three cases. -/
theorem hostWriteIssuesOrStores : Obligations.HostWriteIssuesOrStores := by
  intro s v
  refine ⟨fun hf => ?faulted, fun hf hb => ?busy, fun hf hb => ?idle⟩
  case faulted => simp [writeReg, guardedWrite_of_fault _ hf]
  case busy => simp [writeReg, guardedWrite_of_busy _ hf hb, Status.faulted]
  case idle => simp [writeReg, guardedWrite_of_idle _ hf hb, State.issued, Status.issued]

/-- Settles O16: the six read-only registers share the one arm of `writeReg` that is the identity, which no guard
precedes. -/
theorem readOnlyWriteHasNoEffect : Obligations.ReadOnlyWriteHasNoEffect := by
  rintro s r v (rfl | rfl | rfl | rfl | rfl | rfl) <;> rfl

/-! ### Reads (R41, R56) -/

/-- A read of a register that shows its stored value, in this state, returns it and leaves the state. -/
theorem readReg_of_shown {r : HostReg} {s : State} (h : s.status.busy = false ∨ r.hiddenWhileBusy = false) :
    readReg r s = (s.stored r, s) := by
  rcases h with hb | hr
  · simp [readReg, hb]
  · simp [readReg, hr]

/-- A read of a register that is hidden while BUSY = 1 returns the next draw and counts it. -/
theorem readReg_of_hidden {r : HostReg} {s : State} (hr : r.hiddenWhileBusy = true) (hb : s.status.busy = true) :
    readReg r s = (Config.freeWord .busyRead s.fresh, { s with fresh := s.fresh + 1 }) := by
  simp [readReg, hr, hb]

/-- What a read may change, the counter of draws, is no part of the block, the host or the working registers. -/
theorem readReg_frame (r : HostReg) (s : State) :
    BlockSame s (readReg r s).2 ∧ (readReg r s).2.host = s.host ∧ (readReg r s).2.work = s.work := by
  rcases readReg_cases r s with h | h
  · rw [h]; exact ⟨blockSame_refl s, rfl, rfl⟩
  · rw [h]; exact ⟨⟨⟨fun _ => rfl, rfl, rfl, rfl, rfl⟩, rfl, rfl, rfl, rfl, rfl, rfl⟩, rfl, rfl⟩

/-- Settles O17: the named registers are those that are never hidden and those that are hidden while BUSY = 1. -/
theorem readsHaveNoSideEffect : Obligations.ReadsHaveNoSideEffect := by
  intro s r
  refine ⟨fun h => readReg_of_shown ?shown, fun hb h => readReg_of_hidden ?hidden hb, readReg_frame r s⟩
  case shown => exact h.imp_right (by rintro (rfl | rfl | rfl | rfl | rfl) <;> rfl)
  case hidden => rcases h with rfl | rfl | rfl | rfl <;> rfl

/-! ### The address of an access (R20, R30, R54) -/

/-- Every register lies at a multiple of 8 below 0x48 (R20). -/
theorem HostReg.off_aligned (r : HostReg) : r.off % 8 = 0 ∧ r.off < 0x48 := by
  cases r <;> decide

/-- Every multiple of 8 below 0x48 is the offset of a register (R20). -/
theorem HostReg.exists_off_eq {off : Nat} (h8 : off % 8 = 0) (hlt : off < 0x48) : ∃ r : HostReg, r.off = off := by
  obtain ⟨k, rfl⟩ := Nat.dvd_of_mod_eq_zero h8
  have hmap : ∀ k < 9, ∃ r ∈ [HostReg.cmd, .arg0, .arg1, .res0, .res1, .status, .len, .cap, .param],
      r.off = 8 * k := by decide
  obtain ⟨r, -, hr⟩ := hmap k (by omega)
  exact ⟨r, hr⟩

/-- `regAt` is the inverse of the offset map, so it answers a register at that register's offset only. -/
theorem regAt_eq_some_iff {off : Nat} {r : HostReg} : regAt off = some r ↔ r.off = off := by
  constructor
  · intro h
    simpa using List.find?_some h
  · rintro rfl
    cases r <;> rfl

/-- No register is mapped at a misaligned offset or at 0x48 and above (R30). -/
theorem regAt_eq_none {off : Nat} (h : off % 8 ≠ 0 ∨ 0x48 ≤ off) : regAt off = none := by
  cases hr : regAt off with
  | none => rfl
  | some r =>
    have hoff := regAt_eq_some_iff.mp hr
    have haligned := r.off_aligned
    omega

/-- An 8-byte access at a register's offset reaches it. -/
theorem accessReg_of_regAt {off : Nat} {r : HostReg} (hw : off < 0x80) (hr : regAt off = some r) :
    accessReg (Config.base + off) 8 = .ok r := by
  simp [accessReg, offsetOf_base hw, hr]

/-- An access in the window that is of another width, or where no register is mapped, reaches none. -/
theorem accessReg_undefined {off size : Nat} (hw : off < 0x80) (h : size ≠ 8 ∨ regAt off = none) :
    accessReg (Config.base + off) size = .error .undefinedAccess := by
  rcases h with hsize | hr
  · simp [accessReg, offsetOf_base hw, hsize]
  · simp [accessReg, offsetOf_base hw, hr]

/-- A raw access that reaches a register reads it or writes it. -/
theorem hostStmt_access_ok {addr size : Nat} {r : HostReg} (h : accessReg addr size = .ok r) (hv : HVar) (v : HostVal)
    (s : State) :
    hostStmt (.memRead hv addr size) s = .next (readInto hv r s) ∧
    hostStmt (.memWrite addr size v) s = .next (writeReg r (v.get s.host) s).advance := by
  simp [hostStmt, h]

/-- A raw access that reaches no register is refused for the reason `accessReg` gives. -/
theorem hostStmt_access_refused {addr size : Nat} {e : Refusal} (h : accessReg addr size = .error e) (hv : HVar)
    (v : HostVal) (s : State) :
    hostStmt (.memRead hv addr size) s = .refused e ∧ hostStmt (.memWrite addr size v) s = .refused e := by
  simp [hostStmt, h]

/-- Settles O19: in the window, `accessReg` refuses exactly the widths and offsets of R30, and finds the register at any
other offset. -/
theorem undefinedAccessIsRefused : Obligations.UndefinedAccessIsRefused := by
  intro s hv v off size hw
  constructor
  · intro h
    exact hostStmt_access_refused (accessReg_undefined hw (h.imp_right regAt_eq_none)) hv v s
  · rintro rfl h8 hlt
    obtain ⟨r, hoff⟩ := HostReg.exists_off_eq h8 hlt
    exact ⟨r, hoff, hostStmt_access_ok (accessReg_of_regAt hw (regAt_eq_some_iff.mpr hoff)) hv v s⟩

end Sys2Proof.Machine
end

section
/-! SUPPORT. The flat bit position (R51): its mask, and the bit of the value that it names. -/

namespace Sys2Proof.Machine

theorem limbOffset_lt (pos : Word) : limbOffset pos < 64 := by
  rw [bits_limbOffset]
  exact Nat.mod_lt _ (by decide)

/-- No bit of the mask is shifted out of its 64 bits. -/
theorem bitMask_toNat (pos : Word) : (bitMask pos).toNat = 2 ^ limbOffset pos :=
  BitVec.toNat_twoPow_of_lt (limbOffset_lt pos)

/-- A position below the limbs counted names a bit of the value: that bit of its limb. -/
theorem num_testBit_pos (m : Memory) {n : Nat} {pos : Word} (h : pos.toNat < n * 64) :
    (Memory.num m n).testBit pos.toNat = (Memory.read m (limbIndex pos)).getLsbD (limbOffset pos) := by
  rw [num_testBit, bits_limbIndex, bits_limbOffset]
  simp only [h, decide_true, Bool.true_and]

/-- Settles O40: shift and mask are quotient and remainder by 64, and `num_testBit` places the bit of the value. -/
theorem bitPositionSplits : Obligations.BitPositionSplits := by
  intro pos
  have hmask : (bitMask pos).toNat = 2 ^ (pos.toNat % 64) := by rw [bitMask_toNat, bits_limbOffset]
  exact ⟨bits_limbIndex pos, bits_limbOffset pos, hmask, fun m _ h => num_testBit_pos m h⟩

end Sys2Proof.Machine
end

section
/-! SUPPORT. What the decoder accepts (R70 to R77), the completion step of a word it refuses, and the stop of `checkok`
(R80): the rules, and the statements settled by them. -/

namespace Sys2Proof.Machine

/-! ### The decoder and the encoder (R75, R76) -/

/-- Every command decodes from its own CMD value. -/
theorem decode_encode (i : Instr) : decode (encode i) = .ok i := by
  cases i <;> rfl

/-- A word is determined by its fields, so the only word that decodes to a command is its CMD value. -/
theorem decode_eq_ok_iff {c : Word} {i : Instr} : decode c = .ok i ↔ c = encode i := by
  constructor
  · intro h
    obtain ⟨hrsvh, hrsv, hrow⟩ := decode_ok_mem h
    have hword : c.toNat = fieldOpc c + 2 ^ 8 * fieldW c := by
      rw [word_fields c, hrsvh, hrsv]
      omega
    exact BitVec.eq_of_toNat_eq (hword.trans (mem_map_encode _ hrow).symm)
  · rintro rfl
    exact decode_encode i

/-- Two commands with one CMD value are one command, since decoding gives both back. -/
theorem encode_injective : Function.Injective encode := by
  intro i j h
  exact Except.ok.inj ((decode_encode i).symm.trans (h ▸ decode_encode j))

/-- Every command has a row in the opcode map. -/
theorem exists_row (i : Instr) : ∃ r ∈ opcodeMap, r.instr = i := by
  cases i <;> decide

/-- The rows of the opcode map, each shown with its CMD value, are the pairs of a command and its encoding. -/
theorem mem_cmdValues_iff {c : Word} {i : Instr} :
    (c, i) ∈ opcodeMap.map (fun r => (encode r.instr, r.instr)) ↔ c = encode i := by
  rw [List.mem_map]
  constructor
  · rintro ⟨r, -, h⟩
    cases h
    rfl
  · rintro rfl
    obtain ⟨r, hr, rfl⟩ := exists_row i
    exact ⟨r, hr, rfl⟩

/-- Settles O3: the fifteen rows written out are the rows of the opcode map with their CMD values, and a word decodes to
a command exactly when it is the command's CMD value. -/
theorem decodeAcceptsExactlyTheTable : Obligations.DecodeAcceptsExactlyTheTable :=
  ⟨fun _ _ => decode_eq_ok_iff.trans mem_cmdValues_iff.symm, fun _ _ => decode_eq_ok_iff,
    fun _ _ h => encode_injective h⟩

/-! ### Illegal words (R70 to R73, R77) -/

/-- W is one bit. -/
theorem fieldW_lt (c : Word) : fieldW c < 2 := Nat.mod_lt _ (by decide)

/-- Where RSVH and RSV are zero, a row of the map with the word's OPC and W gives its command. -/
theorem decode_of_row {c : Word} {r : OpcRow} (hrsvh : fieldRsvh c = 0) (hrsv : fieldRsv c = 0)
    (hr : opcodeMap.find? (fun r => r.opc == fieldOpc c && r.w == fieldW c) = some r) : decode c = .ok r.instr := by
  simp [decode, hrsvh, hrsv, hr]

/-- A row of the map has an assigned OPC (R71), and W = 1 only with OPC 0x30 or 0x31 (R72). -/
theorem row_assigned : ∀ r ∈ opcodeMap, opcAssigned r.opc = true ∧ (r.w = 0 ∨ r.opc = 0x30 ∨ r.opc = 0x31) := by
  decide

/-- The decoder accepts exactly the words that pass the static check. -/
theorem exists_decode_ok_iff_wf (c : Word) : (∃ i, decode c = .ok i) ↔ commandWordWf c = true := by
  rw [wf_iff]
  constructor
  · rintro ⟨i, h⟩
    obtain ⟨hrsvh, hrsv, hrow⟩ := decode_ok_mem h
    exact ⟨hrsvh, hrsv, row_assigned _ hrow⟩
  · rintro ⟨hrsvh, hrsv, hopc, hw⟩
    cases hr : opcodeMap.find? (fun r => r.opc == fieldOpc c && r.w == fieldW c) with
    | some r => exact ⟨r.instr, decode_of_row hrsvh hrsv hr⟩
    | none =>
      rcases find_none_reason _ _ (fieldW_lt c) hr with hfree | ⟨hw1, h30, h31⟩
      · simp [hopc] at hfree
      · omega

/-- The decoder refuses exactly the words that fail the static check. -/
theorem exists_decode_error_iff_not_wf (c : Word) : (∃ e, decode c = .error e) ↔ ¬ commandWordWf c = true := by
  rw [← exists_decode_ok_iff_wf]
  cases decode c <;> simp

/-- The bits above W are zero exactly when RSVH and RSV are. -/
theorem extract_reserved_eq_zero_iff (c : Word) :
    c.extractLsb' 9 55 = 0 ↔ fieldRsvh c = 0 ∧ fieldRsv c = 0 := by
  have hlt := c.isLt
  rw [← BitVec.toNat_inj, BitVec.extractLsb'_toNat, Nat.shiftRight_eq_div_pow, fieldRsvh, fieldRsv]
  change c.toNat / 2 ^ 9 % 2 ^ 55 = 0 ↔ _
  omega

/-- W is bit 8 of the word. -/
theorem getLsbD_eight_iff (c : Word) : c.getLsbD 8 = true ↔ fieldW c ≠ 0 := by
  rw [← BitVec.testBit_toNat, Nat.testBit_eq_decide_div_mod_eq, decide_eq_true_iff, fieldW]
  omega

/-- OPC is the low byte of the word. -/
theorem extract_opc_toNat (c : Word) : (c.extractLsb' 0 8).toNat = fieldOpc c := by
  rw [BitVec.extractLsb'_toNat, Nat.shiftRight_zero, fieldOpc]

/-- The low byte of the word is a given byte exactly when OPC is its number. -/
theorem extract_opc_eq_iff (c : Word) (b : Byte) : c.extractLsb' 0 8 = b ↔ fieldOpc c = b.toNat := by
  rw [← BitVec.toNat_inj, extract_opc_toNat]

/-- The OPC values that R71 leaves unassigned, as ranges. -/
theorem opcAssigned_eq_false_iff (opc : Nat) :
    opcAssigned opc = false ↔
      opc = 0 ∨ (0x07 ≤ opc ∧ opc ≤ 0x0f) ∨ (0x14 ≤ opc ∧ opc ≤ 0x1f) ∨ (0x21 ≤ opc ∧ opc ≤ 0x2f) ∨ 0x32 ≤ opc := by
  simp only [opcAssigned, Bool.or_eq_false_iff, Bool.and_eq_false_iff, decide_eq_false_iff_not, beq_eq_false_iff_ne]
  omega

/-- The completion step of a word that the decoder refuses raises ILLEGAL_COMMAND (R76, R77). -/
theorem completion_of_decode_error {s : State} {p : Pend} {e : DecodeError} (hp : s.pend = some p)
    (he : decode p.word = .error e) : completion s = raiseFault .illegalCommand s := by
  simp [completion, hp, he]

/-- Settles O4: an illegal word fails one of the three clauses of the static check, and its fault is raised before any
effect. -/
theorem illegalWordsRaiseIllegalCommand : Obligations.IllegalWordsRaiseIllegalCommand := by
  intro c
  constructor
  · rw [exists_decode_error_iff_not_wf, wf_iff]
    simp only [ne_eq, extract_reserved_eq_zero_iff, getLsbD_eight_iff, extract_opc_eq_iff, extract_opc_toNat,
      ← opcAssigned_eq_false_iff, ← Bool.not_eq_true]
    tauto
  · rintro s p e hp rfl he
    rw [completion_of_decode_error hp he]
    exact raiseFault_precise s .illegalCommand

/-! ### The stop of `checkok` (R80) -/

/-- A host that has stopped with a fault report makes no further access. -/
theorem hostTurn_of_faultReport {s : State} (h : s.host.mode = .faultReport) : hostTurn s = .next s := by
  simp [hostTurn, h]

/-- With bit 2 of the variable set, the host stops with a fault report. -/
theorem hostStmt_stopIfFault_of_set {hv : HVar} {s : State} (h : (Memory.read s.host.vars hv).getLsbD 2 = true) :
    hostStmt (.stopIfFault hv) s = .next { s with host := { s.host with mode := .faultReport } } := by
  simp only [hostStmt, h, if_true]

/-- With bit 2 of the variable clear, the host goes on. -/
theorem hostStmt_stopIfFault_of_clear {hv : HVar} {s : State} (h : (Memory.read s.host.vars hv).getLsbD 2 = false) :
    hostStmt (.stopIfFault hv) s = .next s.advance := by
  simp only [hostStmt, h, Bool.false_eq_true, if_false]

/-- A step that changes only the host's side leaves the block. -/
theorem blockSame_of_host (s : State) (hc : HostCtx) : BlockSame s { s with host := hc } :=
  ⟨⟨fun _ => rfl, rfl, rfl, rfl, rfl⟩, rfl, rfl, rfl, rfl, rfl, rfl⟩

/-- Settles O59: the expansions are the definitions of the pseudo-instructions, and `checkok` stops by bit 2 of `t`. -/
theorem pseudoInstructionsExpand : Obligations.PseudoInstructionsExpand := by
  intro s hv hs a b
  refine ⟨rfl, rfl, rfl, rfl, rfl, rfl, rfl, rfl, rfl, rfl, rfl, rfl, rfl, rfl, rfl, rfl, ?stop⟩
  cases hbit : (Memory.read s.host.vars tVar).getLsbD 2 with
  | true => exact ⟨_, hostStmt_stopIfFault_of_set hbit, blockSame_of_host s _, rfl, hostTurn_of_faultReport rfl⟩
  | false => exact ⟨_, hostStmt_stopIfFault_of_clear hbit, blockSame_of_host s _, rfl, rfl⟩

end Sys2Proof.Machine
end

section
/-! SUPPORT. The limb storage commands (R100 to R105): one equation per branch of each command, and the statements
settled by them. -/

namespace Sys2Proof.Machine

/-! ### CLEAN (R103) -/

/-- The state with LEN at the end of CLEAN's scan: what CLEAN completes from. -/
def State.cleaned (s : State) : State := { s with len := BitVec.ofNat 64 (cleanScan s.limbs s.len.toNat) }

/-- CLEAN has no fault. -/
theorem exec_clean {s : State} {p : Pend} (hp : s.pend = some p) : exec .clean s = complete s.cleaned := by
  simp only [exec, execClean, withOperands_some hp, State.cleaned]

theorem State.cleaned_len_toNat (s : State) : s.cleaned.len.toNat = cleanScan s.limbs s.len.toNat := clean_len s

theorem State.cleaned_len_le (s : State) : s.cleaned.len.toNat ≤ s.len.toNat := by
  rw [cleaned_len_toNat]
  exact cleanScan_le _ _

/-- The limbs that CLEAN drops from the number are zero. -/
theorem State.read_eq_zero_of_cleaned_len_le (s : State) :
    ∀ i, s.cleaned.len.toNat ≤ i → i < s.len.toNat → Memory.read s.limbs i = 0 := by
  rw [cleaned_len_toNat]
  exact cleanScan_zero _ _

/-- CLEAN stops at limb 0 or above a nonzero limb. -/
theorem State.cleaned_top (s : State) :
    s.cleaned.len = 0 ∨ Memory.read s.limbs (s.cleaned.len.toNat - 1) ≠ 0 := by
  rw [cleaned_len_toNat]
  exact (cleanScan_top s.limbs s.len.toNat).imp_left fun h => by simp [cleaned, h]

theorem State.cleaned_normalised (s : State) : s.cleaned.normalised = true :=
  (normalised_iff s.cleaned).mpr (s.cleaned_top.imp_left (congrArg BitVec.toNat))

/-- The dropped limbs add nothing to the value. -/
theorem State.cleaned_value (s : State) : s.cleaned.value = s.value :=
  (Memory.num_of_zero_above s.limbs s.cleaned_len_le s.read_eq_zero_of_cleaned_len_le).symm

/-- Settles O37: CLEAN completes from the cleaned state, and completion leaves the data. -/
theorem cleanNormalisesLength : Obligations.CleanNormalisesLength := by
  intro s p hp
  exact ⟨_, exec_clean hp, completedFrom_data s _ _ _ _ _, s.cleaned_len_le, s.read_eq_zero_of_cleaned_len_le,
    s.cleaned_top, s.cleaned_normalised, s.cleaned_value, rfl, fun _ => rfl, rfl, rfl⟩

/-! ### NEW, RESIZE and SHRINK (R100 to R102) -/

theorem exec_new_of_capMax_lt {s : State} {p : Pend} (hp : s.pend = some p) (h : s.capMax < p.a0.toNat) :
    exec .new s = raiseFault .capacityViolation s := by
  simp only [exec, execNew, withOperands_some hp, if_pos h]

theorem exec_new_of_le_capMax {s : State} {p : Pend} (hp : s.pend = some p) (h : p.a0.toNat ≤ s.capMax) :
    exec .new s = complete { s with limbs := Memory.zeroFill s.limbs 0 p.a0.toNat, cap := p.a0, len := 0 } := by
  simp only [exec, execNew, withOperands_some hp, if_neg h.not_gt]

/-- Settles O34: the fault is raised before any effect, and the zero-fill starts at limb 0. -/
theorem newAllocatesZeroedLimbs : Obligations.NewAllocatesZeroedLimbs := by
  intro s p hp
  refine ⟨fun h => ?fault, fun h => ?completes⟩
  case fault =>
    rw [exec_new_of_capMax_lt hp h]
    exact raiseFault_precise s _
  case completes =>
    have hread (i : Nat) : Memory.read (Memory.zeroFill s.limbs 0 p.a0.toNat) i =
        if i < p.a0.toNat then 0 else Memory.read s.limbs i := by
      simp [Memory.read_zeroFill]
    exact ⟨_, exec_new_of_le_capMax hp h, completedFrom_data s _ _ _ _ _, rfl, rfl, hread, rfl, rfl⟩

theorem exec_resize_of_bad_capacity {s : State} {p : Pend} (hp : s.pend = some p)
    (h : s.capMax < p.a0.toNat ∨ p.a0.toNat < s.len.toNat) :
    exec .resize s = raiseFault .capacityViolation s := by
  rcases h with hmax | hlen
  · simp only [exec, execResize, withOperands_some hp, if_pos hmax]
  · simp only [exec, execResize, withOperands_some hp, if_pos hlen, ite_self]

theorem exec_resize_of_good_capacity {s : State} {p : Pend} (hp : s.pend = some p)
    (hmax : p.a0.toNat ≤ s.capMax) (hlen : s.len.toNat ≤ p.a0.toNat) :
    exec .resize s = complete { s with limbs := Memory.zeroFill s.limbs s.cap.toNat p.a0.toNat, cap := p.a0 } := by
  simp only [exec, execResize, withOperands_some hp, if_neg hmax.not_gt, if_neg hlen.not_gt]

/-- Settles O35: the zero-fill covers growth only; where CAP shrinks, the limbs given up are at LEN or above, so R34 has
them zero. -/
theorem resizeMovesCapacity : Obligations.ResizeMovesCapacity := by
  intro s p hp
  refine ⟨fun h => ?fault, fun hmax hlen => ?completes⟩
  case fault =>
    rw [exec_resize_of_bad_capacity hp h]
    exact raiseFault_precise s _
  case completes =>
    have hread := Memory.read_zeroFill s.limbs s.cap.toNat p.a0.toNat
    refine ⟨_, exec_resize_of_good_capacity hp hmax hlen, completedFrom_data s _ _ _ _ _, rfl, rfl, hread, rfl, rfl,
      fun htail i hi hcap => ?_⟩
    calc Memory.read (Memory.zeroFill s.limbs s.cap.toNat p.a0.toNat) i
        = Memory.read s.limbs i := by rw [hread, if_neg (by omega)]
      _ = 0 := htail i (hlen.trans hi) hcap

/-- SHRINK has no fault. -/
theorem exec_shrink {s : State} {p : Pend} (hp : s.pend = some p) :
    exec .shrink s = complete { s with cap := s.len } := by
  simp only [exec, execShrink, withOperands_some hp]

/-- Settles O36: CAP is the only data SHRINK writes. -/
theorem shrinkTrimsCapacity : Obligations.ShrinkTrimsCapacity := by
  intro s p hp
  exact ⟨_, exec_shrink hp, completedFrom_data s _ _ _ _ _, rfl, rfl, fun _ => rfl, rfl, rfl⟩

/-! ### RDLIMB and WRLIMB (R104, R105) -/

theorem exec_rdlimb_of_cap_le {s : State} {p : Pend} (hp : s.pend = some p) (h : s.cap.toNat ≤ p.a0.toNat) :
    exec .rdlimb s = raiseFault .capacityViolation s := by
  simp only [exec, execRdlimb, withOperands_some hp, if_pos h]

theorem exec_rdlimb_of_lt_cap {s : State} {p : Pend} (hp : s.pend = some p) (h : p.a0.toNat < s.cap.toNat) :
    exec .rdlimb s = complete { s with res0 := Memory.read s.limbs p.a0.toNat } := by
  simp only [exec, execRdlimb, withOperands_some hp, if_neg h.not_ge]

/-- Settles O38: RES0 is the only data RDLIMB writes, and R34 gives what it reads at LEN or above. -/
theorem rdlimbReturnsLimb : Obligations.RdlimbReturnsLimb := by
  intro s p hp
  refine ⟨fun h => ?fault, fun h => ?completes⟩
  case fault =>
    rw [exec_rdlimb_of_cap_le hp h]
    exact raiseFault_precise s _
  case completes =>
    exact ⟨_, exec_rdlimb_of_lt_cap hp h, completedFrom_data s _ _ _ _ _, rfl, rfl, rfl, fun _ => rfl, rfl,
      fun htail hlen => htail _ hlen h⟩

theorem exec_wrlimb_of_cap_le {s : State} {p : Pend} (hp : s.pend = some p) (h : s.cap.toNat ≤ p.a0.toNat) :
    exec .wrlimb s = raiseFault .capacityViolation s := by
  simp only [exec, execWrlimb, withOperands_some hp, if_pos h]

theorem exec_wrlimb_of_lt_cap {s : State} {p : Pend} (hp : s.pend = some p) (h : p.a0.toNat < s.cap.toNat) :
    exec .wrlimb s =
      complete { s with limbs := Memory.write s.limbs p.a0.toNat p.a1, len := lenCover s.len p.a0.toNat } := by
  simp only [exec, execWrlimb, withOperands_some hp, if_neg h.not_ge]

/-- Settles O39: an index below CAP leaves room for LEN to cover it in 64 bits, and a limb between LEN and the index is
zero by R34 and not the one written. -/
theorem wrlimbStoresLimb : Obligations.WrlimbStoresLimb := by
  intro s p hp
  refine ⟨fun h => ?fault, fun h => ?completes⟩
  case fault =>
    rw [exec_wrlimb_of_cap_le hp h]
    exact raiseFault_precise s _
  case completes =>
    have hlen : (lenCover s.len p.a0.toNat).toNat = max s.len.toNat (p.a0.toNat + 1) :=
      lenCover_toNat (lt_of_le_of_lt h s.cap.isLt)
    refine ⟨_, exec_wrlimb_of_lt_cap hp h, completedFrom_data s _ _ _ _ _,
      fun i => Memory.read_write s.limbs p.a0.toNat i p.a1, hlen, rfl, rfl, rfl, fun htail j hj hlt => ?_⟩
    have hzero : Memory.read s.limbs j = 0 := htail j hj (hlt.trans h)
    exact ⟨hzero, (Memory.read_write_other s.limbs p.a1 hlt.ne).trans hzero⟩

end Sys2Proof.Machine
end

section
/-! SUPPORT. The bit-access commands (R120 to R123): one equation per branch of each command, the bits of the value after
SETBIT, and the statements settled by them. -/

namespace Sys2Proof.Machine

/-! ### SETBIT (R120) -/

theorem exec_setbit_of_cap_le {s : State} {p : Pend} (hp : s.pend = some p) (h : s.cap.toNat * 64 ≤ p.a0.toNat) :
    exec .setbit s = raiseFault .capacityViolation s := by
  simp only [exec, execSetbit, withOperands_some hp, if_pos h]

theorem exec_setbit_of_lt_cap {s : State} {p : Pend} (hp : s.pend = some p) (h : p.a0.toNat < s.cap.toNat * 64) :
    exec .setbit s = complete { s with
      len := lenCover s.len (limbIndex p.a0)
      limbs := Memory.write s.limbs (limbIndex p.a0)
        (Memory.read s.limbs (limbIndex p.a0) ||| bitMask p.a0) } := by
  simp only [exec, execSetbit, withOperands_some hp, if_neg h.not_ge]

/-- Limb index and offset determine the position (R51). -/
theorem index_offset_eq_iff (pos : Word) (j : Nat) :
    (j / 64 = limbIndex pos ∧ j % 64 = limbOffset pos) ↔ j = pos.toNat := by
  rw [bits_limbIndex, bits_limbOffset]
  omega

/-- Setting a bit of one of the first `n` limbs sets that bit of their value, and no other. -/
theorem num_testBit_set_bit (m : Memory) {n : Nat} {pos : Word} (h : pos.toNat < n * 64) (j : Nat) :
    (Memory.num (Memory.write m (limbIndex pos) (Memory.read m (limbIndex pos) ||| bitMask pos)) n).testBit j =
      (decide (j = pos.toNat) || (Memory.num m n).testBit j) := by
  rw [num_testBit, num_testBit, set_bits m pos (j / 64) (j % 64) (Nat.mod_lt j (by decide))]
  simp only [index_offset_eq_iff]
  by_cases hj : j = pos.toNat
  · simp [hj, h]
  · simp [hj]

/-- Where R34 holds, counting limbs from LEN up to CAP into the value does not change it. -/
theorem num_eq_value_of_tailZero {s : State} (htail : s.tailZero) {n : Nat} (hlen : s.len.toNat ≤ n)
    (hcap : n ≤ max s.len.toNat s.cap.toNat) : Memory.num s.limbs n = s.value :=
  Memory.num_of_zero_above s.limbs hlen fun i hi hn => htail i hi (by omega)

/-- Settles O41: the new LEN covers the position, and the limbs it takes in are below CAP, so by R34 they add nothing to
the value but the bit set. -/
theorem setbitSetsOneBit : Obligations.SetbitSetsOneBit := by
  intro s p hp
  refine ⟨fun h => ?fault, fun h => ?completes⟩
  case fault =>
    rw [exec_setbit_of_cap_le hp h]
    exact raiseFault_precise s _
  case completes =>
    have hlen := lenCover_bit s.len p.a0
    refine ⟨_, exec_setbit_of_lt_cap hp h, completedFrom_data s _ _ _ _ _, set_bits s.limbs p.a0, hlen, rfl, rfl, rfl,
      fun htail j => ?_⟩
    have hindex : limbIndex p.a0 < s.cap.toNat := limbIndex_lt.mpr h
    have hcover : p.a0.toNat < (lenCover s.len (limbIndex p.a0)).toNat * 64 := limbIndex_lt.mp (by omega)
    have hvalue : Memory.num s.limbs (lenCover s.len (limbIndex p.a0)).toNat = s.value :=
      num_eq_value_of_tailZero htail (by omega) (by omega)
    rw [← hvalue]
    exact num_testBit_set_bit s.limbs hcover j

/-! ### UNSETBIT (R121) -/

theorem exec_unsetbit_of_len_le {s : State} {p : Pend} (hp : s.pend = some p) (h : s.len.toNat * 64 ≤ p.a0.toNat) :
    exec .unsetbit s = raiseFault .rangeViolation s := by
  simp only [exec, execUnsetbit, withOperands_some hp, if_pos h]

theorem exec_unsetbit_of_lt_len {s : State} {p : Pend} (hp : s.pend = some p) (h : p.a0.toNat < s.len.toNat * 64) :
    exec .unsetbit s = complete { s with
      limbs := Memory.write s.limbs (limbIndex p.a0)
        (Memory.read s.limbs (limbIndex p.a0) &&& ~~~ bitMask p.a0) } := by
  simp only [exec, execUnsetbit, withOperands_some hp, if_neg h.not_ge]

/-- Settles O42: the limbs are the only data UNSETBIT writes. -/
theorem unsetbitClearsOneBit : Obligations.UnsetbitClearsOneBit := by
  intro s p hp
  refine ⟨fun h => ?fault, fun h => ?completes⟩
  case fault =>
    rw [exec_unsetbit_of_len_le hp h]
    exact raiseFault_precise s _
  case completes =>
    exact ⟨_, exec_unsetbit_of_lt_len hp h, completedFrom_data s _ _ _ _ _, unset_bits s.limbs p.a0, rfl, rfl, rfl, rfl⟩

/-! ### FORCEBIT (R122) -/

/-- A value that is no bit is reported whatever the position (R203). -/
theorem exec_forcebit_of_one_lt {s : State} {p : Pend} (hp : s.pend = some p) (hbit : 1 < p.a1.toNat) :
    exec .forcebit s = raiseFault .operandViolation s := by
  simp only [exec, execForcebit, withOperands_some hp, if_pos hbit]

theorem exec_forcebit_of_cap_le {s : State} {p : Pend} (hp : s.pend = some p) (hbit : p.a1.toNat ≤ 1)
    (h : s.cap.toNat * 64 ≤ p.a0.toNat) : exec .forcebit s = raiseFault .capacityViolation s := by
  simp only [exec, execForcebit, withOperands_some hp, if_neg hbit.not_gt, if_pos h]

theorem exec_forcebit_of_lt_cap {s : State} {p : Pend} (hp : s.pend = some p) (hbit : p.a1.toNat ≤ 1)
    (h : p.a0.toNat < s.cap.toNat * 64) :
    exec .forcebit s = complete { s with
      len := lenCover s.len (limbIndex p.a0)
      limbs := Memory.write s.limbs (limbIndex p.a0)
        ((Memory.read s.limbs (limbIndex p.a0) &&& ~~~ bitMask p.a0) ||| p.a1 * bitMask p.a0) } := by
  simp only [exec, execForcebit, withOperands_some hp, if_neg hbit.not_gt, if_neg h.not_ge]

/-- Settles O43: the value is checked first, then the position, and a value of one bit times the mask is that bit in
place. -/
theorem forcebitAssignsOneBit : Obligations.ForcebitAssignsOneBit := by
  intro s p hp
  refine ⟨fun hbit => ?operandFault, fun hbit h => ?capacityFault, fun hbit h => ?completes⟩
  case operandFault =>
    rw [exec_forcebit_of_one_lt hp hbit]
    exact raiseFault_precise s _
  case capacityFault =>
    rw [exec_forcebit_of_cap_le hp hbit h]
    exact raiseFault_precise s _
  case completes =>
    exact ⟨_, exec_forcebit_of_lt_cap hp hbit h, completedFrom_data s _ _ _ _ _, force_bits s.limbs p.a0 p.a1 hbit,
      lenCover_bit s.len p.a0, rfl, rfl, rfl⟩

/-! ### ISBITSET (R123) -/

theorem exec_isbitset_of_len_le {s : State} {p : Pend} (hp : s.pend = some p) (h : s.len.toNat * 64 ≤ p.a0.toNat) :
    exec .isbitset s = raiseFault .rangeViolation s := by
  simp only [exec, execIsbitset, withOperands_some hp, if_pos h]

/-- A bit widened to a word is 1 or 0. -/
theorem setWidth_ofBool_eq_ite (b : Bool) : BitVec.setWidth 64 (BitVec.ofBool b) = if b then 1 else 0 := by
  cases b <;> rfl

theorem exec_isbitset_of_lt_len {s : State} {p : Pend} (hp : s.pend = some p) (h : p.a0.toNat < s.len.toNat * 64) :
    exec .isbitset s = complete { s with
      res0 := if (Memory.read s.limbs (limbIndex p.a0)).getLsbD (limbOffset p.a0) then 1 else 0 } := by
  simp only [exec, execIsbitset, withOperands_some hp, if_neg h.not_ge, setWidth_ofBool_eq_ite]

/-- Settles O44: RES0 is the only data ISBITSET writes. -/
theorem isbitsetReadsOneBit : Obligations.IsbitsetReadsOneBit := by
  intro s p hp
  refine ⟨fun h => ?fault, fun h => ?completes⟩
  case fault =>
    rw [exec_isbitset_of_len_le hp h]
    exact raiseFault_precise s _
  case completes =>
    exact ⟨_, exec_isbitset_of_lt_len hp h, completedFrom_data s _ _ _ _ _, rfl, rfl, rfl, fun _ => rfl, rfl⟩

end Sys2Proof.Machine
end

section
/-! SUPPORT. DIVMOD (R140): one equation for each special divisor, the end of the command at a divisor of at least 2, and
the statement settled by them. -/

namespace Sys2Proof.Machine

theorem exec_divmod_of_zero {s : State} {p : Pend} (hp : s.pend = some p) (h : p.a0 = 0) :
    exec .divmod s = raiseFault .operandViolation s := by
  simp only [exec, execDivmod, withOperands_some hp, if_pos h]

theorem exec_divmod_of_one {s : State} {p : Pend} (hp : s.pend = some p) (h : p.a0 = 1) :
    exec .divmod s = complete { s with res0 := 0 } := by
  have h0 : p.a0 ≠ 0 := by rw [h]; decide
  simp only [exec, execDivmod, withOperands_some hp, if_neg h0, if_pos h]

/-- By a divisor of at least 2, DIVMOD leaves its writes whether or not it ends in the fault that the top limb of the
adjusted length decides (R140, R205). -/
theorem exec_divmod_leaves_divided {s : State} {p : Pend} (hp : s.pend = some p) (h : 2 ≤ p.a0.toNat) :
    ∃ t, exec .divmod s = .next t ∧ DataSame (divided p.a0.toNat s) t ∧
      (if 0 < t.len.toNat ∧ Memory.read t.limbs (t.len.toNat - 1) = 0 then FaultedFrom .invariantViolation s t
        else CompletedFrom s t) := by
  have hupd : DataUpd s (divided p.a0.toNat s) := dataUpd_data s _ _ _ _ _
  rw [execDivmod_eq hp h]
  by_cases htop : topLimbZero (divided p.a0.toNat s).limbs (divided p.a0.toNat s).len.toNat = true
  · rw [if_pos htop]
    refine ⟨_, rfl, ⟨fun _ => rfl, rfl, rfl, rfl, rfl⟩, ?_⟩
    rw [State.faulted_len, State.faulted_limbs, if_pos ((topLimbZero_iff _ _).mp htop)]
    exact faultedFrom hupd _
  · rw [if_neg htop]
    refine ⟨_, rfl, ⟨fun _ => rfl, rfl, rfl, rfl, rfl⟩, ?_⟩
    rw [State.completed_len, State.completed_limbs, if_neg (mt (topLimbZero_iff _ _).mpr htop)]
    exact completedFrom hupd

/-- Settles O46: by a divisor of at least 2, the data of the next state are those of `divided`, whose limbs, remainder
and length `divided_spec` gives. -/
theorem divmodDividesInPlace : Obligations.DivmodDividesInPlace := by
  intro s p hp
  refine ⟨fun h => ?byZero, fun h => ?byOne, fun h => ?byTwoOrMore⟩
  case byZero =>
    rw [exec_divmod_of_zero hp h]
    exact raiseFault_precise s _
  case byOne =>
    exact ⟨_, exec_divmod_of_one hp h, completedFrom_data s _ _ _ _ _, rfl, fun _ => rfl, rfl, rfl, rfl⟩
  case byTwoOrMore =>
    obtain ⟨t, hexec, ⟨hlimbs, hlen, hcap, hres0, hres1⟩, hend⟩ := exec_divmod_leaves_divided hp h
    obtain ⟨hrem, hquot, hdrop, hcap', hres1', -⟩ := divided_spec s p.a0.toNat (by omega) p.a0.isLt
    refine ⟨t, hexec, ?_, fun i => ?_, ?_, hcap.trans hcap', hres1.trans hres1', hend⟩
    · rw [hres0, hrem]
    · rw [hlimbs i, hquot i]
    · rw [hlen, hlimbs, hdrop]

end Sys2Proof.Machine
end

section
/-! SUPPORT. The inverse commands (R161 to R164): the end of INVODD and of MODINV at any width that fits in a register,
one equation for each path of each command, and the statements settled by them. -/

namespace Sys2Proof.Machine

/-! ### INVODD and MODINV at one width -/

theorem inverseOfOdd_of_even {w : Nat} {b : BitVec w} (h : b.toNat % 2 = 0) (s : State) :
    inverseOfOdd b s = raiseFault .operandViolation s := by
  rw [inverseOfOdd, if_pos h]

/-- INVODD of an odd word leaves its inverse and the shift 0; the results are the only data it writes. -/
theorem inverseOfOdd_of_odd {w : Nat} (hw : 0 < w) (hw64 : w ≤ 64) {b : BitVec w} (hb : b.toNat % 2 = 1) (s : State) :
    ∃ t, inverseOfOdd b s = .next t ∧ CompletedFrom s t ∧ t.res0.toNat < 2 ^ w ∧
      (t.res0.toNat * b.toNat) % 2 ^ w = 1 ∧ t.res1 = 0 ∧ t.len = s.len ∧ t.cap = s.cap ∧ LimbsSame s t := by
  obtain ⟨y, hinv, hfinish⟩ := finish_spec hw b hb 0 s
  have hres0 : (y.setWidth 64).toNat = y.toNat := BitVec.toNat_setWidth_of_le hw64
  have hexec : inverseOfOdd b s = complete { s with res0 := y.setWidth 64, res1 := BitVec.ofNat 64 0 } := by
    rw [inverseOfOdd, if_neg (by omega), hfinish]
  refine ⟨_, hexec, completedFrom_results s _ _, ?_, ?_, rfl, rfl, rfl, fun _ => rfl⟩
  · rw [State.completed_res0, hres0]
    exact y.isLt
  · rw [State.completed_res0, hres0]
    exact mul_mod_one hw hinv

theorem inverseOfOddPart_of_zero {w : Nat} {b : BitVec w} (h : b = 0) (s : State) :
    inverseOfOddPart b s = raiseFault .operandViolation s := by
  rw [inverseOfOddPart, if_pos h]

/-- MODINV of a nonzero word leaves the number of its trailing zeros and the inverse of its odd part; the results are the
only data it writes. -/
theorem inverseOfOddPart_of_ne_zero {w : Nat} (hw64 : w ≤ 64) {b : BitVec w} (hb : b ≠ 0) (s : State) :
    ∃ t, inverseOfOddPart b s = .next t ∧ CompletedFrom s t ∧ t.res1.toNat < w ∧
      2 ^ t.res1.toNat ∣ b.toNat ∧ b.toNat / 2 ^ t.res1.toNat % 2 = 1 ∧ t.res0.toNat < 2 ^ w ∧
      (t.res0.toNat * (b.toNat / 2 ^ t.res1.toNat)) % 2 ^ w = 1 ∧
      t.len = s.len ∧ t.cap = s.cap ∧ LimbsSame s t := by
  obtain ⟨hctz, hdvd, hshift, hodd⟩ := oddPart b hb
  have hw : 0 < w := by omega
  obtain ⟨y, hinv, hfinish⟩ := finish_spec hw (b >>> ctz b) (by rw [hshift, hodd]) (ctz b) s
  have hres0 : (y.setWidth 64).toNat = y.toNat := BitVec.toNat_setWidth_of_le hw64
  have hres1 : (BitVec.ofNat 64 (ctz b)).toNat = ctz b := by
    rw [BitVec.toNat_ofNat, Nat.mod_eq_of_lt (by omega)]
  have hexec : inverseOfOddPart b s =
      complete { s with res0 := y.setWidth 64, res1 := BitVec.ofNat 64 (ctz b) } := by
    rw [inverseOfOddPart, if_neg hb, hfinish]
  refine ⟨_, hexec, completedFrom_results s _ _, ?_⟩
  simp only [State.completed_res0, State.completed_res1, hres0, hres1]
  have hmul : (y.toNat * (b.toNat / 2 ^ ctz b)) % 2 ^ w = 1 := by rw [← hshift, mul_mod_one hw hinv]
  exact ⟨hctz, hdvd, hodd, y.isLt, hmul, rfl, rfl, fun _ => rfl⟩

/-! ### The paths of the four commands -/

theorem exec_invoddW32_of_le {s : State} {p : Pend} (hp : s.pend = some p) (h : 2 ^ 32 ≤ p.a0.toNat) :
    exec .invoddW32 s = raiseFault .operandViolation s := by
  simp only [exec, execInvoddW32, withOperands_some hp, if_pos ((upper_iff _).mpr h)]

theorem exec_invoddW32_of_lt {s : State} {p : Pend} (hp : s.pend = some p) (h : p.a0.toNat < 2 ^ 32) :
    exec .invoddW32 s = inverseOfOdd (lowerHalf p.a0) s := by
  simp only [exec, execInvoddW32, withOperands_some hp, if_neg (mt (upper_iff _).mp (Nat.not_le.mpr h))]

theorem exec_invoddW64 {s : State} {p : Pend} (hp : s.pend = some p) : exec .invoddW64 s = inverseOfOdd p.a0 s := by
  simp only [exec, execInvoddW64, withOperands_some hp]

theorem exec_modinvW32_of_le {s : State} {p : Pend} (hp : s.pend = some p) (h : 2 ^ 32 ≤ p.a0.toNat) :
    exec .modinvW32 s = raiseFault .operandViolation s := by
  simp only [exec, execModinvW32, withOperands_some hp, if_pos ((upper_iff _).mpr h)]

theorem exec_modinvW32_of_lt {s : State} {p : Pend} (hp : s.pend = some p) (h : p.a0.toNat < 2 ^ 32) :
    exec .modinvW32 s = inverseOfOddPart (lowerHalf p.a0) s := by
  simp only [exec, execModinvW32, withOperands_some hp, if_neg (mt (upper_iff _).mp (Nat.not_le.mpr h))]

theorem exec_modinvW64 {s : State} {p : Pend} (hp : s.pend = some p) :
    exec .modinvW64 s = inverseOfOddPart p.a0 s := by
  simp only [exec, execModinvW64, withOperands_some hp]

/-- A word below 2^32 is zero exactly when its lower half is. -/
theorem lowerHalf_eq_zero_iff {a : Word} (h : a.toNat < 2 ^ 32) : lowerHalf a = 0 ↔ a = 0 := by
  rw [← BitVec.toNat_inj, ← BitVec.toNat_inj, lower_toNat a h]
  rfl

/-! ### The statements -/

/-- Settles O53: a word below 2^32 is its lower half, on which INVODD runs at width 32. -/
theorem invoddW32GivesInverse : Obligations.InvoddW32GivesInverse := by
  intro s p hp
  refine ⟨fun h => ?traps, fun hlt hodd => ?completes⟩
  case traps =>
    have hexec : exec .invoddW32 s = raiseFault .operandViolation s := by
      rcases Nat.lt_or_ge p.a0.toNat (2 ^ 32) with hlt | hle
      · have heven : p.a0.toNat % 2 = 0 := h.resolve_left (by omega)
        rw [exec_invoddW32_of_lt hp hlt, inverseOfOdd_of_even (by rw [lower_toNat _ hlt, heven])]
      · exact exec_invoddW32_of_le hp hle
    rw [hexec]
    exact raiseFault_precise s _
  case completes =>
    rw [exec_invoddW32_of_lt hp hlt, ← lower_toNat p.a0 hlt]
    exact inverseOfOdd_of_odd (by decide) (by decide) (by rw [lower_toNat p.a0 hlt, hodd]) s

/-- Settles O54: INVODD at width 64. -/
theorem invoddW64GivesInverse : Obligations.InvoddW64GivesInverse := by
  intro s p hp
  rw [exec_invoddW64 hp]
  refine ⟨fun heven => ?traps, fun hodd => ?completes⟩
  case traps =>
    rw [inverseOfOdd_of_even heven]
    exact raiseFault_precise s _
  case completes =>
    obtain ⟨t, hexec, hdone, -, hrest⟩ := inverseOfOdd_of_odd (by decide) (by decide) hodd s
    exact ⟨t, hexec, hdone, hrest⟩

/-- Settles O55: a word below 2^32 is its lower half, on which MODINV runs at width 32. -/
theorem modinvW32GivesOddPartInverse : Obligations.ModinvW32GivesOddPartInverse := by
  intro s p hp
  refine ⟨fun h => ?traps, fun hlt hne => ?completes⟩
  case traps =>
    have hexec : exec .modinvW32 s = raiseFault .operandViolation s := by
      rcases Nat.lt_or_ge p.a0.toNat (2 ^ 32) with hlt | hle
      · have hzero : p.a0 = 0 := h.resolve_left (by omega)
        rw [exec_modinvW32_of_lt hp hlt, inverseOfOddPart_of_zero ((lowerHalf_eq_zero_iff hlt).mpr hzero)]
      · exact exec_modinvW32_of_le hp hle
    rw [hexec]
    exact raiseFault_precise s _
  case completes =>
    rw [exec_modinvW32_of_lt hp hlt, ← lower_toNat p.a0 hlt]
    exact inverseOfOddPart_of_ne_zero (by decide) (mt (lowerHalf_eq_zero_iff hlt).mp hne) s

/-- Settles O56: MODINV at width 64. -/
theorem modinvW64GivesOddPartInverse : Obligations.ModinvW64GivesOddPartInverse := by
  intro s p hp
  rw [exec_modinvW64 hp]
  refine ⟨fun hzero => ?traps, fun hne => ?completes⟩
  case traps =>
    rw [inverseOfOddPart_of_zero hzero]
    exact raiseFault_precise s _
  case completes =>
    obtain ⟨t, hexec, hdone, hlt, hdvd, hodd, -, hrest⟩ := inverseOfOddPart_of_ne_zero (by decide) hne s
    exact ⟨t, hexec, hdone, hlt, hdvd, hodd, hrest⟩

end Sys2Proof.Machine
end

section
/-! SUPPORT. The exceptions (60_exceptions.md): what BUSY_COLLISION leaves, what the fault state ignores and what ends
it, the causes of OPERAND_VIOLATION, how the completion step can fault, and the statements settled by them. -/

namespace Sys2Proof.Machine

/-! ### BUSY_COLLISION (R207) -/

/-- A collision is a fault entry: CMD, ARG0, ARG1 and PARAM are kept, so the written value is lost. -/
theorem State.collided_faultedFrom (s : State) : FaultedFrom .busyCollision s s.collided :=
  ⟨⟨rfl, rfl, rfl, rfl, rfl, rfl, rfl⟩, rfl, rfl⟩

/-- CMD, ARG0 and ARG1 are the guarded registers: writing one to a busy block collides, whatever the value. -/
theorem writeReg_of_busy {r : HostReg} (hr : r = .cmd ∨ r = .arg0 ∨ r = .arg1) (v : Word) {s : State}
    (hf : s.status.fault = false) (hb : s.status.busy = true) : writeReg r v s = s.collided := by
  rcases hr with rfl | rfl | rfl <;> simp only [writeReg, guardedWrite_of_busy _ hf hb]

/-- Settles O15: the write is the collision, whose data are the free draws and whose STATUS word is a closed term. -/
theorem busyWriteCollides : Obligations.BusyWriteCollides := by
  intro s r v hr hf hb
  rw [writeReg_of_busy hr v hf hb]
  have hword : (Status.faulted .busyCollision).word = 0x704 := by decide
  exact ⟨s.collided_faultedFrom, hword, rfl, rfl, rfl, rfl, rfl⟩

/-! ### The fault state (R206) -/

theorem DataSame.trans {s t u : State} (hst : DataSame s t) (htu : DataSame t u) : DataSame s u where
  limbs i := (htu.limbs i).trans (hst.limbs i)
  len := htu.len.trans hst.len
  cap := htu.cap.trans hst.cap
  res0 := htu.res0.trans hst.res0
  res1 := htu.res1.trans hst.res1

theorem BlockSame.trans {s t u : State} (hst : BlockSame s t) (htu : BlockSame t u) : BlockSame s u where
  data := hst.data.trans htu.data
  cmd := htu.cmd.trans hst.cmd
  arg0 := htu.arg0.trans hst.arg0
  arg1 := htu.arg1.trans hst.arg1
  param := htu.param.trans hst.param
  status := htu.status.trans hst.status
  pend := htu.pend.trans hst.pend

/-- Using up a turn touches only the model's own bookkeeping. -/
theorem State.popTurn_blockSame (s : State) : BlockSame s s.popTurn :=
  ⟨⟨fun _ => rfl, rfl, rfl, rfl, rfl⟩, rfl, rfl, rfl, rfl, rfl, rfl⟩

/-- No register write has an effect in the fault state. -/
theorem writeReg_of_fault (r : HostReg) (v : Word) {s : State} (hf : s.status.fault = true) : writeReg r v s = s :=
  (writeReg_cases r v s).resolve_right (by simp [hf])

/-- There is no completion step in the fault state. -/
theorem blockTurn_of_fault {s : State} (hf : s.status.fault = true) : blockTurn s = .next s := by
  simp [blockTurn, hf]

/-- In the fault state no turn of the host changes the block, since the one thing that could, a register write, has no
effect. -/
theorem hostTurn_blockSame_of_fault {s t : State} (hf : s.status.fault = true) (h : hostTurn s = .next t) :
    BlockSame s t := by
  rcases hostTurn_cases h with rfl | ⟨r, v, rfl⟩ | hhost
  · exact blockSame_refl _
  · rw [writeReg_of_fault r v hf]
    exact blockSame_of_host s _
  · exact hhost.block

/-- In the fault state a turn that is not the reset turn leaves everything the block holds. -/
theorem takeTurn_blockSame_of_fault {a : Turn} (ha : a ≠ .reset) {s t : State} (hf : s.status.fault = true)
    (h : takeTurn a s = .next t) : BlockSame s t := by
  cases a with
  | host => exact hostTurn_blockSame_of_fault hf h
  | block =>
    obtain rfl := Host.Outcome.next.inj ((blockTurn_of_fault hf).symm.trans h)
    exact blockSame_refl _
  | reset => exact absurd rfl ha

/-- Settles O21: a step is a turn on the state less that turn, and neither the host's turn nor the block's changes the
block in the fault state. -/
theorem faultStateLeftOnlyByReset : Obligations.FaultStateLeftOnlyByReset := by
  intro s hf hb
  have hstep (t : State) (hturn : s.turn ≠ .reset) (h : step s = .next t) : BlockSame s t :=
    s.popTurn_blockSame.trans (takeTurn_blockSame_of_fault hturn hf h)
  have hnotFinal : ¬ s.final := fun ⟨_, hnf⟩ => by simp [hf] at hnf
  exact ⟨fun r v => writeReg_of_fault r v hf, blockTurn_of_fault hf, fun r => readReg_of_shown (.inl hb), hstep, rfl,
    hnotFinal⟩

/-! ### The code a command ends with -/

/-- The next state shows this code in ERRCODE. -/
def EndsWith (o : Host.Outcome State Fault Refusal) (code : FaultCode) : Prop :=
  ∃ t, o = .next t ∧ t.status.err = code

theorem endsWith_iff_of_next {o : Host.Outcome State Fault Refusal} {t : State} (h : o = .next t) (code : FaultCode) :
    EndsWith o code ↔ t.status.err = code := by
  subst h
  exact ⟨fun ⟨_, ht, hcode⟩ => Host.Outcome.next.inj ht ▸ hcode, fun hcode => ⟨t, rfl, hcode⟩⟩

/-- A precise fault ends with its own code and no other. -/
theorem TrapsPrecisely.endsWith_iff {o : Host.Outcome State Fault Refusal} {c : FaultCode} {s : State}
    (h : TrapsPrecisely o c s) (code : FaultCode) : EndsWith o code ↔ c = code := by
  obtain ⟨t, ho, hfault, -⟩ := h
  rw [endsWith_iff_of_next ho, hfault.status]

/-- Completion keeps ERRCODE and FAULT. -/
theorem CompletedFrom.err_fault {s t : State} (h : CompletedFrom s t) :
    t.status.err = s.status.err ∧ t.status.fault = s.status.fault := by
  rw [h.status]
  exact ⟨rfl, rfl⟩

/-- With ERRCODE 0 before it, a completion ends with no other code. -/
theorem not_endsWith_of_completedFrom {o : Host.Outcome State Fault Refusal} {s t : State} (ho : o = .next t)
    (hdone : CompletedFrom s t) (herr : s.status.err = .none) {code : FaultCode} (hcode : code ≠ .none) :
    ¬ EndsWith o code := by
  rw [endsWith_iff_of_next ho, hdone.err_fault.1, herr]
  exact hcode.symm

/-! ### The inverse commands: a fault of the operand, or none (R161 to R164) -/

/-- The command raises OPERAND_VIOLATION for this cause, and otherwise completes. -/
structure OperandFaultOnly (i : Instr) (s : State) (cause : Prop) : Prop where
  traps : cause → TrapsPrecisely (exec i s) .operandViolation s
  completes : ¬ cause → ∃ t, exec i s = .next t ∧ CompletedFrom s t

theorem OperandFaultOnly.endsWith_iff {i : Instr} {s : State} {cause : Prop} (h : OperandFaultOnly i s cause)
    (herr : s.status.err = .none) : EndsWith (exec i s) .operandViolation ↔ cause := by
  by_cases hc : cause
  · exact iff_of_true (((h.traps hc).endsWith_iff _).mpr rfl) hc
  · obtain ⟨t, hexec, hdone⟩ := h.completes hc
    exact iff_of_false (not_endsWith_of_completedFrom hexec hdone herr (by decide)) hc

/-- Such a command has no fault with another code. -/
theorem OperandFaultOnly.err_of_fault {i : Instr} {s t : State} {cause : Prop} (h : OperandFaultOnly i s cause)
    (hf : s.status.fault = false) (hexec : exec i s = .next t) (ht : t.status.fault = true) :
    t.status.err = .operandViolation := by
  by_cases hc : cause
  · exact (endsWith_iff_of_next hexec _).mp (((h.traps hc).endsWith_iff _).mpr rfl)
  · obtain ⟨t', hexec', hdone⟩ := h.completes hc
    obtain rfl := Host.Outcome.next.inj (hexec'.symm.trans hexec)
    simp [hdone.err_fault.2, hf] at ht

theorem invoddW32_operandFaultOnly {s : State} {p : Pend} (hp : s.pend = some p) :
    OperandFaultOnly .invoddW32 s (p.a0.toNat % 2 = 0 ∨ 2 ^ 32 ≤ p.a0.toNat) := by
  obtain ⟨htraps, hcompletes⟩ := invoddW32GivesInverse s p hp
  refine ⟨fun h => htraps h.symm, fun h => ?_⟩
  obtain ⟨t, hexec, hdone, -⟩ := hcompletes (by omega) (by omega)
  exact ⟨t, hexec, hdone⟩

theorem invoddW64_operandFaultOnly {s : State} {p : Pend} (hp : s.pend = some p) :
    OperandFaultOnly .invoddW64 s (p.a0.toNat % 2 = 0) := by
  obtain ⟨htraps, hcompletes⟩ := invoddW64GivesInverse s p hp
  refine ⟨htraps, fun h => ?_⟩
  obtain ⟨t, hexec, hdone, -⟩ := hcompletes (by omega)
  exact ⟨t, hexec, hdone⟩

theorem modinvW32_operandFaultOnly {s : State} {p : Pend} (hp : s.pend = some p) :
    OperandFaultOnly .modinvW32 s (p.a0 = 0 ∨ 2 ^ 32 ≤ p.a0.toNat) := by
  obtain ⟨htraps, hcompletes⟩ := modinvW32GivesOddPartInverse s p hp
  refine ⟨fun h => htraps h.symm, fun h => ?_⟩
  obtain ⟨hne, hlt⟩ := not_or.mp h
  obtain ⟨t, hexec, hdone, -⟩ := hcompletes (Nat.not_le.mp hlt) hne
  exact ⟨t, hexec, hdone⟩

theorem modinvW64_operandFaultOnly {s : State} {p : Pend} (hp : s.pend = some p) :
    OperandFaultOnly .modinvW64 s (p.a0 = 0) := by
  obtain ⟨htraps, hcompletes⟩ := modinvW64GivesOddPartInverse s p hp
  refine ⟨htraps, fun h => ?_⟩
  obtain ⟨t, hexec, hdone, -⟩ := hcompletes h
  exact ⟨t, hexec, hdone⟩

/-- Each of the four inverse commands is of that kind. -/
theorem inverse_operandFaultOnly {i : Instr} (hi : i ∈ [Instr.invoddW32, .invoddW64, .modinvW32, .modinvW64])
    {s : State} {p : Pend} (hp : s.pend = some p) : ∃ cause, OperandFaultOnly i s cause := by
  simp only [List.mem_cons, List.not_mem_nil, or_false] at hi
  rcases hi with rfl | rfl | rfl | rfl
  · exact ⟨_, invoddW32_operandFaultOnly hp⟩
  · exact ⟨_, invoddW64_operandFaultOnly hp⟩
  · exact ⟨_, modinvW32_operandFaultOnly hp⟩
  · exact ⟨_, modinvW64_operandFaultOnly hp⟩

/-! ### The causes of OPERAND_VIOLATION (R202) -/

/-- By a divisor of at least 2, DIVMOD completes or raises INVARIANT_VIOLATION. -/
theorem divmod_endsWith_operandViolation_iff {s : State} {p : Pend} (hp : s.pend = some p)
    (herr : s.status.err = .none) : EndsWith (exec .divmod s) .operandViolation ↔ p.a0 = 0 := by
  obtain ⟨hzero, hone, -⟩ := divmodDividesInPlace s p hp
  by_cases h0 : p.a0 = 0
  · exact iff_of_true (((hzero h0).endsWith_iff _).mpr rfl) h0
  refine iff_of_false ?_ h0
  by_cases h1 : p.a0 = 1
  · obtain ⟨t, hexec, hdone, -⟩ := hone h1
    exact not_endsWith_of_completedFrom hexec hdone herr (by decide)
  · obtain ⟨t, hexec, -, hend⟩ := exec_divmod_leaves_divided hp (two_le_iff.mpr ⟨h0, h1⟩)
    split at hend
    · rw [endsWith_iff_of_next hexec, hend.status]
      decide
    · exact not_endsWith_of_completedFrom hexec hend herr (by decide)

/-- With a value of one bit, FORCEBIT completes or raises CAPACITY_VIOLATION. -/
theorem forcebit_endsWith_operandViolation_iff {s : State} {p : Pend} (hp : s.pend = some p)
    (herr : s.status.err = .none) : EndsWith (exec .forcebit s) .operandViolation ↔ 1 < p.a1.toNat := by
  obtain ⟨hvalue, hposition, hcompletes⟩ := forcebitAssignsOneBit s p hp
  rcases Nat.lt_or_ge 1 p.a1.toNat with hbad | hbit
  · exact iff_of_true (((hvalue hbad).endsWith_iff _).mpr rfl) hbad
  refine iff_of_false ?_ hbit.not_gt
  rcases Nat.lt_or_ge p.a0.toNat (s.cap.toNat * 64) with hlt | hge
  · obtain ⟨t, hexec, hdone, -⟩ := hcompletes hbit hlt
    exact not_endsWith_of_completedFrom hexec hdone herr (by decide)
  · rw [(hposition hbit hge).endsWith_iff]
    decide

/-- The commands that can raise OPERAND_VIOLATION at all (R200). -/
theorem mem_of_endsWith_operandViolation {i : Instr} {s : State} (herr : s.status.err = .none)
    (h : EndsWith (exec i s) .operandViolation) :
    i ∈ [Instr.divmod, .invoddW32, .invoddW64, .modinvW32, .modinvW64, .forcebit] := by
  obtain ⟨t, hexec, hcode⟩ := h
  obtain ⟨p, u, -, hupd, rfl | ⟨rfl, c, rfl, hc⟩ | ⟨rfl, -⟩⟩ := exec_cases hexec
  · simp [hupd.status, herr] at hcode
  · obtain rfl : c = .operandViolation := hcode
    simpa using hc
  · exact List.mem_cons_self

/-- Settles O31: the six commands that can raise the code do so exactly for their own cause, and no other command
can. -/
theorem operandViolationCauses : Obligations.OperandViolationCauses := by
  intro i s p hp herr
  change EndsWith (exec i s) .operandViolation ↔ _
  cases i with
  | divmod => simpa using divmod_endsWith_operandViolation_iff hp herr
  | invoddW32 => simpa using (invoddW32_operandFaultOnly hp).endsWith_iff herr
  | invoddW64 => simpa using (invoddW64_operandFaultOnly hp).endsWith_iff herr
  | modinvW32 => simpa using (modinvW32_operandFaultOnly hp).endsWith_iff herr
  | modinvW64 => simpa using (modinvW64_operandFaultOnly hp).endsWith_iff herr
  | forcebit => simpa using forcebit_endsWith_operandViolation_iff hp herr
  | new | resize | shrink | clean | rdlimb | wrlimb | setbit | unsetbit | isbitset =>
    exact iff_of_false (fun h => absurd (mem_of_endsWith_operandViolation herr h) (by decide)) (by simp)

/-! ### The faults of the completion step (R205) -/

/-- How a command faults: before any effect and not with INVARIANT_VIOLATION, or as DIVMOD, after its writes.
INVODD and MODINV never raise INVARIANT_VIOLATION, because every odd word has an inverse. -/
theorem exec_fault_cases {i : Instr} {s t : State} (hf : s.status.fault = false) (hexec : exec i s = .next t)
    (ht : t.status.fault = true) :
    (∃ c, c ≠ .invariantViolation ∧ t = s.faulted c) ∨
    (i = .divmod ∧ ∃ p, s.pend = some p ∧ 2 ≤ p.a0.toNat ∧
      t = (divided p.a0.toNat s).faulted .invariantViolation) := by
  obtain ⟨p, u, hp, hupd, rfl | ⟨rfl, c, rfl, hc⟩ | ⟨rfl, hd, rfl, rfl⟩⟩ := exec_cases hexec
  · simp [hupd.status, hf] at ht
  · refine .inl ⟨c, ?_, rfl⟩
    rcases hc with ⟨rfl, -⟩ | ⟨rfl, -⟩ | ⟨rfl, -⟩ | ⟨rfl, hi⟩
    · decide
    · decide
    · decide
    · obtain ⟨cause, hrule⟩ := inverse_operandFaultOnly hi hp
      have hcode : FaultCode.invariantViolation = .operandViolation := hrule.err_of_fault hf hexec ht
      cases hcode
  · exact .inr ⟨rfl, p, hp, hd, rfl⟩

/-- How the completion step faults: an illegal word is refused before any effect, and a command faults as above. -/
theorem completion_fault_cases {s t : State} (hf : s.status.fault = false) (hcompl : completion s = .next t)
    (ht : t.status.fault = true) :
    (∃ c, c ≠ .invariantViolation ∧ t = s.faulted c) ∨
    ∃ p, s.pend = some p ∧ decode p.word = .ok .divmod ∧ 2 ≤ p.a0.toNat ∧
      t = (divided p.a0.toNat s).faulted .invariantViolation := by
  obtain ⟨p, hp, ⟨i, hi, hexec⟩ | ⟨e, -, rfl⟩⟩ := completion_cases hcompl
  · refine (exec_fault_cases hf hexec ht).imp_right ?_
    rintro ⟨rfl, p', hp', hd, rfl⟩
    obtain rfl := Option.some.inj (hp.symm.trans hp')
    exact ⟨p, hp, hi, hd, rfl⟩
  · exact .inl ⟨.illegalCommand, by decide, rfl⟩

/-- Fault entry leaves the data as the command left them. -/
theorem State.faulted_dataSame (code : FaultCode) (s : State) : DataSame s (s.faulted code) :=
  ⟨fun _ => rfl, rfl, rfl, rfl, rfl⟩

/-- Settles O32: a fault before any effect leaves the data, and DIVMOD's INVARIANT_VIOLATION leaves its writes, which
touch no operand. -/
theorem commandFaultsArePrecise : Obligations.CommandFaultsArePrecise := by
  intro s t hf hcompl ht
  rcases completion_fault_cases hf hcompl ht with ⟨c, hc, rfl⟩ | ⟨p, hp, hdecode, hd, rfl⟩
  · exact ⟨faultedFrom (.refl s) c, fun _ => s.faulted_dataSame c, fun h => absurd h hc⟩
  · exact ⟨faultedFrom (dataUpd_data s _ _ _ _ _) _, fun h => absurd rfl h,
      fun _ => ⟨p, hp, hdecode, hd, (divided p.a0.toNat s).faulted_dataSame _⟩⟩

end Sys2Proof.Machine
end

section
/-! SUPPORT. The reset turn (R230), and the statement settled by it. -/

namespace Sys2Proof.Machine

/-- With no field set, the STATUS word has no bit set (R26, R42). -/
@[simp] theorem Status.cleared_word : Status.cleared.word = 0 := by decide

/-- The reset turn reads nothing of the state but whose turn it is, so it is taken in a fault state and with a command
in flight too (R230). -/
theorem step_of_turn_reset {s : State} (hturn : s.turn = .reset) : step s = .next s.popTurn.resetBlock := by
  rw [step, hturn, takeTurn]

/-- Settles O10: the step is the block's reset on the state less its turn, and using up a turn leaves PARAM. -/
theorem resetTurnRestoresBlock : Obligations.ResetTurnRestoresBlock := by
  intro s hturn
  refine ⟨s.popTurn.resetBlock, step_of_turn_reset hturn, ?_⟩
  simp

end Sys2Proof.Machine
end

section
/-! SUPPORT. How a command ends, what the turn of any agent can do, the storage invariant (R33, R34) kept by every
command, and the invariant of every run settled by them. -/

namespace Sys2Proof.Machine

/-! ### How a command ends (R37, R205) -/

/-- A command completes or faults, with a code that is not 0; either way it keeps the operands, the host and the
schedule. -/
theorem exec_ends {i : Instr} {s t : State} (h : exec i s = .next t) :
    CompletedFrom s t ∨ ∃ c, c ≠ .none ∧ FaultedFrom c s t := by
  obtain ⟨p, u, -, hupd, rfl | ⟨rfl, c, rfl, hc⟩ | ⟨-, -, -, rfl⟩⟩ := exec_cases h
  · exact .inl (completedFrom hupd)
  · refine .inr ⟨c, ?_, faultedFrom hupd c⟩
    rcases hc with ⟨rfl, -⟩ | ⟨rfl, -⟩ | ⟨rfl, -⟩ | ⟨rfl, -⟩ <;> decide
  · exact .inr ⟨_, by decide, faultedFrom hupd _⟩

/-- The completion step ends as a command does; an illegal word faults. -/
theorem completion_ends {s t : State} (h : completion s = .next t) :
    CompletedFrom s t ∨ ∃ c, c ≠ .none ∧ FaultedFrom c s t := by
  obtain ⟨p, -, ⟨i, -, hexec⟩ | ⟨e, -, rfl⟩⟩ := completion_cases h
  · exact exec_ends hexec
  · exact .inr ⟨_, by decide, faultedFrom (.refl s) _⟩

/-! ### What a turn can do -/

/-- Nothing happening is one thing the host's side can do. -/
theorem HostSideOnly.refl (s : State) : HostSideOnly s s := .of_host s s.host (.inl rfl)

/-- An issue or a store of an operand, by a host write to an idle block (R36). -/
def IdleWrite (s t : State) : Prop :=
  ∃ v, t = (s.issued v).advance ∨ t = State.advance { s with arg0 := v } ∨ t = State.advance { s with arg1 := v }

/-- Everything a host turn that goes on can do to the block: nothing, a collision, or a write to an idle block. -/
theorem hostTurn_effect {s t : State} (h : hostTurn s = .next t) :
    HostSideOnly s t ∨
    (s.status.fault = false ∧ s.status.busy = true ∧ t = s.collided.advance) ∨
    (s.status.fault = false ∧ s.status.busy = false ∧ IdleWrite s t) := by
  rcases hostTurn_cases h with rfl | ⟨r, v, rfl⟩ | hside
  · exact .inl (.refl _)
  · rcases writeReg_cases r v s with hw | ⟨hf, hb, hw⟩ | ⟨hf, hb, hw⟩
    · rw [hw]
      exact .inl (.of_host s _ (.inl rfl))
    · exact .inr (.inl ⟨hf, hb, congrArg _ hw⟩)
    · exact .inr (.inr ⟨hf, hb, v, by rcases hw with hw | hw | hw <;> simp [hw]⟩)
  · exact .inl hside

/-- The block's turn is the completion step of a command in flight, or nothing. -/
theorem blockTurn_effect {s t : State} (h : blockTurn s = .next t) :
    t = s ∨ (s.status.fault = false ∧ s.status.busy = true ∧ completion s = .next t) := by
  unfold blockTurn at h
  split at h
  · exact .inl (Host.Outcome.next.inj h).symm
  next hf =>
    split at h
    next hb => exact .inr ⟨by simpa using hf, hb, h⟩
    · exact .inl (Host.Outcome.next.inj h).symm

/-! ### The storage invariant (R33, R34) -/

/-- R33 and R34 of a limb store with this LEN, CAP and CAP_MAX, and its canonical form. -/
structure StoreInv (m : Memory) (len cap capMax : Nat) : Prop where
  len_le : len ≤ cap
  cap_le : cap ≤ capMax
  tail : ∀ i, len ≤ i → i < cap → Memory.read m i = 0
  wf : Memory.wf m
  physical : ∀ c ∈ m, c.1 < capMax

/-- The storage invariant of a state. -/
abbrev State.StoreOk (s : State) : Prop := StoreInv s.limbs s.len.toNat s.cap.toNat s.capMax

namespace StoreInv

variable {m : Memory} {len cap capMax : Nat}

/-- Zero-filling up to a new CAP: the limbs in [LEN, CAP) are zero or in the range filled. -/
theorem zeroFill (h : StoreInv m len cap capMax) {len' lo hi : Nat} (hlen : len' ≤ hi) (hhi : hi ≤ capMax)
    (htail : ∀ i, len' ≤ i → i < lo → i < hi → Memory.read m i = 0) :
    StoreInv (Memory.zeroFill m lo hi) len' hi capMax where
  len_le := hlen
  cap_le := hhi
  tail i hi₁ hi₂ := by
    rw [Memory.read_zeroFill]
    split
    · rfl
    · exact htail i hi₁ (by omega) hi₂
  wf := Memory.wf_zeroFill h.wf lo hi
  physical c hc := h.physical c (Memory.mem_zeroFill hc)

/-- SHRINK leaves no limb in [LEN, CAP). -/
theorem shrink (h : StoreInv m len cap capMax) : StoreInv m len len capMax :=
  ⟨le_rfl, h.len_le.trans h.cap_le, fun _ h₁ h₂ => absurd h₂ h₁.not_gt, h.wf, h.physical⟩

/-- LEN may be lowered past limbs that are zero. -/
theorem lower (h : StoreInv m len cap capMax) {len' : Nat} (hle : len' ≤ len)
    (hzero : ∀ i, len' ≤ i → i < len → Memory.read m i = 0) : StoreInv m len' cap capMax where
  len_le := hle.trans h.len_le
  cap_le := h.cap_le
  tail i h₁ h₂ := by
    rcases Nat.lt_or_ge i len with hlt | hge
    · exact hzero i h₁ hlt
    · exact h.tail i hge h₂
  wf := h.wf
  physical := h.physical

/-- A write below CAP that LEN is raised to cover. -/
theorem write (h : StoreInv m len cap capMax) {i : Nat} (hi : i < cap) (v : Word) :
    StoreInv (Memory.write m i v) (max len (i + 1)) cap capMax where
  len_le := by have := h.len_le; omega
  cap_le := h.cap_le
  tail j h₁ h₂ := by
    rw [Memory.read_write_other m v (by omega)]
    exact h.tail j (by omega) h₂
  wf := Memory.wf_write h.wf i v
  physical c hc := by
    rcases Memory.mem_write hc with hci | hmem
    · have := h.cap_le
      omega
    · exact h.physical c hmem

/-- A write below LEN leaves LEN. -/
theorem write_below_len (h : StoreInv m len cap capMax) {i : Nat} (hi : i < len) (v : Word) :
    StoreInv (Memory.write m i v) len cap capMax := by
  have hw := h.write (hi.trans_le h.len_le) v
  rwa [max_eq_left hi] at hw

end StoreInv

/-- DIVMOD writes limbs below LEN, and LEN drops only past a limb that is zero (R140). -/
theorem divided_storeOk {s : State} (h : s.StoreOk) {d : Nat} (hd : 2 ≤ d) (hd64 : d < 2 ^ 64) :
    (divided d s).StoreOk := by
  have hwrites : StoreInv (divided d s).limbs s.len.toNat s.cap.toNat s.capMax :=
    divLoop_store d (StoreInv · s.len.toNat s.cap.toNat s.capMax) s.len.toNat
      (fun _ _ v hm hi => hm.write_below_len hi v) _ _ _ le_rfl h
  obtain ⟨-, -, hlen, -⟩ := divided_spec s d (by omega) hd64
  refine hwrites.lower (len' := (divided d s).len.toNat) ?_ fun i h₁ h₂ => ?_
  · rw [hlen]
    split <;> omega
  · rw [hlen] at h₁
    split at h₁
    next htop => exact (show i = s.len.toNat - 1 by omega) ▸ htop.2
    · omega

/-- The next state, if there is one, meets the storage invariant. -/
def KeepsStore (o : Host.Outcome State Fault Refusal) : Prop := ∀ t, o = .next t → t.StoreOk

theorem keepsStore_complete {u : State} (h : u.StoreOk) : KeepsStore (complete u) := by
  rintro _ ⟨⟩
  exact h

theorem keepsStore_raiseFault {u : State} (h : u.StoreOk) (c : FaultCode) : KeepsStore (raiseFault c u) := by
  rintro _ ⟨⟩
  exact h

theorem KeepsStore.ite {c : Prop} [Decidable c] {a b : Host.Outcome State Fault Refusal} (ht : c → KeepsStore a)
    (he : ¬ c → KeepsStore b) : KeepsStore (if c then a else b) := by
  split
  next h => exact ht h
  next h => exact he h

/-- The inverse commands write results only, so they keep the storage invariant at either width. -/
theorem finishInverse_keepsStore {s : State} (h : s.StoreOk) {w : Nat} (b : BitVec w) (k : Nat) :
    KeepsStore (finishInverse b k s) := by
  unfold finishInverse
  cases invOdd b with
  | some y => exact keepsStore_complete h
  | none => exact keepsStore_raiseFault h _

theorem inverseOfOdd_keepsStore {s : State} (h : s.StoreOk) {w : Nat} (b : BitVec w) :
    KeepsStore (inverseOfOdd b s) :=
  .ite (fun _ => keepsStore_raiseFault h _) fun _ => finishInverse_keepsStore h b 0

theorem inverseOfOddPart_keepsStore {s : State} (h : s.StoreOk) {w : Nat} (b : BitVec w) :
    KeepsStore (inverseOfOddPart b s) :=
  .ite (fun _ => keepsStore_raiseFault h _) fun _ => finishInverse_keepsStore h _ _

/-- A write to the limb of a position below CAP, with LEN raised to cover it (SETBIT, FORCEBIT). -/
theorem storeInv_write_bit {s : State} (h : s.StoreOk) {pos : Word} (hpos : ¬ s.cap.toNat * 64 ≤ pos.toNat) (v : Word) :
    StoreInv (Memory.write s.limbs (limbIndex pos) v) (lenCover s.len (limbIndex pos)).toNat s.cap.toNat s.capMax := by
  rw [lenCover_bit]
  exact h.write (limbIndex_lt.mpr (by omega)) v

/-- Every command keeps the storage invariant, whether it completes or faults. -/
theorem exec_keepsStore (i : Instr) {s : State} {p : Pend} (hp : s.pend = some p) (h : s.StoreOk) :
    KeepsStore (exec i s) := by
  have hfault (c : FaultCode) : KeepsStore (raiseFault c s) := keepsStore_raiseFault h c
  cases i <;> simp only [exec, execNew, execResize, execShrink, execClean, execRdlimb, execWrlimb, execSetbit,
    execUnsetbit, execForcebit, execIsbitset, execDivmod, execModinvW32, execModinvW64, execInvoddW32, execInvoddW64,
    withOperands_some hp]
  case new =>
    exact .ite (fun _ => hfault _) fun hmax =>
      keepsStore_complete (h.zeroFill (Nat.zero_le _) (by omega) fun _ _ hi => absurd hi (Nat.not_lt_zero _))
  case resize =>
    exact .ite (fun _ => hfault _) fun hmax => .ite (fun _ => hfault _) fun hlen =>
      keepsStore_complete (h.zeroFill (Nat.not_lt.mp hlen) (Nat.not_lt.mp hmax) fun i hi hcap _ => h.tail i hi hcap)
  case shrink => exact keepsStore_complete h.shrink
  case clean => exact keepsStore_complete (h.lower s.cleaned_len_le s.read_eq_zero_of_cleaned_len_le)
  case rdlimb => exact .ite (fun _ => hfault _) fun _ => keepsStore_complete h
  case wrlimb =>
    refine .ite (fun _ => hfault _) fun hlt => keepsStore_complete ?_
    rw [State.StoreOk, lenCover_toNat (lt_of_le_of_lt (Nat.not_le.mp hlt) s.cap.isLt)]
    exact h.write (Nat.not_le.mp hlt) p.a1
  case setbit => exact .ite (fun _ => hfault _) fun hlt => keepsStore_complete (storeInv_write_bit h hlt _)
  case unsetbit =>
    exact .ite (fun _ => hfault _) fun hlt =>
      keepsStore_complete (h.write_below_len (limbIndex_lt.mpr (Nat.not_le.mp hlt)) _)
  case forcebit =>
    exact .ite (fun _ => hfault _) fun _ => .ite (fun _ => hfault _) fun hlt =>
      keepsStore_complete (storeInv_write_bit h hlt _)
  case isbitset => exact .ite (fun _ => hfault _) fun _ => keepsStore_complete h
  case divmod =>
    refine .ite (fun _ => hfault _) fun h0 => .ite (fun _ => keepsStore_complete h) fun h1 => ?_
    have hdiv := divided_storeOk h (two_le_iff.mpr ⟨h0, h1⟩) p.a0.isLt
    exact .ite (fun _ => keepsStore_raiseFault hdiv _) fun _ => keepsStore_complete hdiv
  case modinvW32 => exact .ite (fun _ => hfault _) fun _ => inverseOfOddPart_keepsStore h _
  case modinvW64 => exact inverseOfOddPart_keepsStore h _
  case invoddW32 => exact .ite (fun _ => hfault _) fun _ => inverseOfOdd_keepsStore h _
  case invoddW64 => exact inverseOfOdd_keepsStore h _

/-- The completion step keeps the storage invariant. -/
theorem completion_keepsStore {s t : State} (h : s.StoreOk) (hcompl : completion s = .next t) : t.StoreOk := by
  obtain ⟨p, hp, ⟨i, -, hexec⟩ | ⟨e, -, rfl⟩⟩ := completion_cases hcompl
  · exact exec_keepsStore i hp h t hexec
  · exact h

/-! ### The invariant of every run -/

/-- The invariant gives the storage invariant outside the fault state. -/
theorem State.Inv.storeOk {s : State} (h : s.Inv) (hf : s.status.fault = false) : s.StoreOk :=
  ⟨(h.lengths hf).1, (h.lengths hf).2, h.tail hf, h.limbs_wf, h.limbs_physical⟩

/-- No command is in flight in an idle block. -/
theorem State.Inv.pend_of_idle {s : State} (h : s.Inv) (hb : s.status.busy = false) : s.pend = none := by
  simpa [hb] using h.pend_iff_busy

/-- A fault entry, of a command or of a collision, keeps the invariant whatever it leaves in L, LEN and CAP: R33 and R34
bind only while FAULT = 0. -/
theorem FaultedFrom.inv {c : FaultCode} {s t : State} (h : FaultedFrom c s t) (hs : s.Inv) (hc : c ≠ .none)
    (hwf : Memory.wf t.limbs) (hphys : ∀ x ∈ t.limbs, x.1 < t.capMax) : t.Inv where
  capMax_legal := by
    rw [State.capMax, h.param]
    exact hs.capMax_legal
  pend_iff_busy := by rw [h.pend, h.status]; rfl
  latched p hp := by simp [h.pend] at hp
  not_busy_and_fault := by simp [h.status]
  done_idle := by simp [h.status]
  err_iff_fault := by simp [h.status, hc]
  lengths := by simp [h.status]
  tail := by simp [h.status]
  limbs_wf := hwf
  limbs_physical := hphys
  vars_wf := h.host ▸ hs.vars_wf

/-- A completion keeps the invariant where it leaves the storage invariant. -/
theorem CompletedFrom.inv {s t : State} (h : CompletedFrom s t) (hs : s.Inv) (hf : s.status.fault = false)
    (hstore : t.StoreOk) : t.Inv where
  capMax_legal := by
    rw [State.capMax, h.param]
    exact hs.capMax_legal
  pend_iff_busy := by rw [h.pend, h.status]; rfl
  latched p hp := by simp [h.pend] at hp
  not_busy_and_fault := by simp [h.status]
  done_idle := by simp [h.status, hf]
  err_iff_fault := by simpa [h.status] using hs.err_iff_fault
  lengths _ := ⟨hstore.len_le, hstore.cap_le⟩
  tail _ := hstore.tail
  limbs_wf := hstore.wf
  limbs_physical := hstore.physical
  vars_wf := h.host ▸ hs.vars_wf

theorem completion_keepsInv {s t : State} (hs : s.Inv) (hf : s.status.fault = false)
    (h : completion s = .next t) : t.Inv := by
  have hstore : t.StoreOk := completion_keepsStore (hs.storeOk hf) h
  rcases completion_ends h with hdone | ⟨c, hc, hfault⟩
  · exact hdone.inv hs hf hstore
  · exact hfault.inv hs hc hstore.wf hstore.physical

/-- What the host's side does, and using up a turn, keeps the invariant. -/
theorem HostSideOnly.inv {s t : State} (h : HostSideOnly s t) (hs : s.Inv) : t.Inv := by
  refine inv_congr hs h.block h.limbs ?_
  rcases h.vars with hv | ⟨hv, w, hvars⟩
  · rw [hv]
    exact hs.vars_wf
  · rw [hvars]
    exact Memory.wf_write hs.vars_wf hv w

theorem State.Inv.advance {s : State} (hs : s.Inv) : s.advance.Inv :=
  (HostSideOnly.of_host s s.advance.host (.inl rfl)).inv hs

theorem State.Inv.popTurn {s : State} (hs : s.Inv) : s.popTurn.Inv :=
  inv_congr hs s.popTurn_blockSame rfl hs.vars_wf

theorem State.Inv.collided {s : State} (hs : s.Inv) : s.collided.Inv :=
  s.collided_faultedFrom.inv hs (by decide) (wf_drawLimbs _ _) (drawLimbs_physical _ _)

/-- An issue latches CMD, ARG0 and ARG1 as they stand after it (R36). -/
theorem State.Inv.issued {s : State} (hs : s.Inv) (hf : s.status.fault = false) (v : Word) : (s.issued v).Inv where
  capMax_legal := hs.capMax_legal
  pend_iff_busy := rfl
  latched p hp := (Option.some.inj hp).symm
  not_busy_and_fault := by simp [hf]
  done_idle := by simp
  err_iff_fault := hs.err_iff_fault
  lengths := hs.lengths
  tail := hs.tail
  limbs_wf := hs.limbs_wf
  limbs_physical := hs.limbs_physical
  vars_wf := hs.vars_wf

/-- The operands of an idle block are not latched anywhere. -/
theorem State.Inv.setArgs {s : State} (hs : s.Inv) (hb : s.status.busy = false) (a0 a1 : Word) :
    State.Inv { s with arg0 := a0, arg1 := a1 } :=
  { hs with latched := fun p hp => by simp [hs.pend_of_idle hb] at hp }

theorem IdleWrite.inv {s t : State} (h : IdleWrite s t) (hs : s.Inv) (hf : s.status.fault = false)
    (hb : s.status.busy = false) : t.Inv := by
  obtain ⟨v, rfl | rfl | rfl⟩ := h
  · exact (hs.issued hf v).advance
  · exact (hs.setArgs hb v s.arg1).advance
  · exact (hs.setArgs hb s.arg0 v).advance

/-- Reset leaves no storage allocated, and what the limbs are drawn as is canonical (R42, R230). -/
theorem State.Inv.resetBlock {s : State} (hs : s.Inv) : s.resetBlock.Inv where
  capMax_legal := hs.capMax_legal
  pend_iff_busy := rfl
  latched p hp := by simp at hp
  not_busy_and_fault := by simp
  done_idle := by simp
  err_iff_fault := by simp
  lengths _ := ⟨le_rfl, Nat.zero_le _⟩
  tail _ i _ hi := absurd hi (Nat.not_lt_zero i)
  limbs_wf := wf_drawLimbs _ _
  limbs_physical := drawLimbs_physical _ _
  vars_wf := hs.vars_wf

theorem takeTurn_keepsInv {a : Turn} {s t : State} (hs : s.Inv) (h : takeTurn a s = .next t) : t.Inv := by
  cases a with
  | host =>
    rcases hostTurn_effect h with hside | ⟨-, -, rfl⟩ | ⟨hf, hb, hwrite⟩
    · exact hside.inv hs
    · exact hs.collided.advance
    · exact hwrite.inv hs hf hb
  | block =>
    rcases blockTurn_effect h with rfl | ⟨hf, -, hcompl⟩
    · exact hs
    · exact completion_keepsInv hs hf hcompl
  | reset =>
    cases h
    exact hs.resetBlock

/-- Settles O9: using up a turn keeps the invariant, and so does the turn of each agent. -/
theorem stepKeepsInvariant : Obligations.StepKeepsInvariant :=
  fun _ _ hs h => takeTurn_keepsInv hs.popTurn h

/-- Settles O8: with CAP = 0 and no limb listed, only the range of CAP_MAX is to show. -/
theorem resetStateMeetsInvariant : Obligations.ResetStateMeetsInvariant where
  capMax_legal := by
    rw [State.reset_capMax]
    exact capMaxLegal_iff.mp capMaxLegal_capMax
  pend_iff_busy := rfl
  latched p hp := by cases hp
  not_busy_and_fault := by decide
  done_idle := by decide
  err_iff_fault := by decide
  lengths _ := ⟨le_rfl, Nat.zero_le _⟩
  tail _ i _ hi := absurd hi (Nat.not_lt_zero i)
  limbs_wf := Memory.wf_nil
  limbs_physical := by simp [State.reset]
  vars_wf := Memory.wf_nil

end Sys2Proof.Machine
end

section
/-! SUPPORT. Limbs at or above CAP are not observable (R32): stores that agree below CAP, commands and accesses on
states that differ above it only, and the statement settled by them. -/

namespace Sys2Proof.Machine

/-! ### Stores that agree below an index -/

/-- The first `n` limbs of the two stores are equal. -/
def AgreeBelow (n : Nat) (m m' : Memory) : Prop := ∀ i, i < n → Memory.read m' i = Memory.read m i

namespace AgreeBelow

variable {n : Nat} {m m' : Memory}

theorem mono (h : AgreeBelow n m m') {k : Nat} (hk : k ≤ n) : AgreeBelow k m m' := fun i hi => h i (hi.trans_le hk)

theorem write (h : AgreeBelow n m m') (i : Nat) (v : Word) :
    AgreeBelow n (Memory.write m i v) (Memory.write m' i v) := by
  intro j hj
  rw [Memory.read_write, Memory.read_write, h j hj]

/-- Zero-filling from `n` or below up to `hi` makes the stores agree below `hi`, whatever was there. -/
theorem zeroFill (h : AgreeBelow n m m') {lo : Nat} (hlo : lo ≤ n) (hi : Nat) :
    AgreeBelow hi (Memory.zeroFill m lo hi) (Memory.zeroFill m' lo hi) := by
  intro j hj
  rw [Memory.read_zeroFill, Memory.read_zeroFill]
  split
  · rfl
  · exact h j (by omega)

theorem num (h : AgreeBelow n m m') : Memory.num m' n = Memory.num m n := Memory.num_congr h

theorem topLimbZero (h : AgreeBelow n m m') : topLimbZero m' n = topLimbZero m n := by
  rcases Nat.eq_zero_or_pos n with rfl | hn
  · rfl
  · rw [Machine.topLimbZero, Machine.topLimbZero, h (n - 1) (by omega)]

theorem cleanScan (h : AgreeBelow n m m') : cleanScan m' n = cleanScan m n := by
  induction n with
  | zero => rfl
  | succ n ih => rw [Machine.cleanScan, Machine.cleanScan, h n (by omega), ih (h.mono (by omega))]

/-- The division loop reads and writes the limbs it counts only (R140). -/
theorem divLoop (h : AgreeBelow n m m') (d : Nat) {i : Nat} (hi : i ≤ n) (r : Nat) :
    (divLoop d i r m').1 = (divLoop d i r m).1 ∧ AgreeBelow n (divLoop d i r m).2 (divLoop d i r m').2 := by
  induction i generalizing r m m' with
  | zero => exact ⟨rfl, h⟩
  | succ i ih =>
    rw [Machine.divLoop, Machine.divLoop, h i (by omega)]
    exact ih (h.write i _) (by omega) _

end AgreeBelow

/-! ### States that differ at or above CAP only -/

/-- Such a state is the first with another store that agrees below CAP. -/
theorem sameButUnallocated_iff {s t : State} :
    SameButUnallocated s t ↔ ∃ m, t = { s with limbs := m } ∧ AgreeBelow s.cap.toNat s.limbs m := by
  constructor
  · intro h
    exact ⟨t.limbs, h.rest, h.limbs⟩
  · rintro ⟨m, rfl, h⟩
    exact ⟨rfl, h⟩

theorem SameButUnallocated.status {s t : State} (h : SameButUnallocated s t) : t.status = s.status := by rw [h.rest]

theorem SameButUnallocated.pend {s t : State} (h : SameButUnallocated s t) : t.pend = s.pend := by rw [h.rest]

theorem SameButUnallocated.host {s t : State} (h : SameButUnallocated s t) : t.host = s.host := by rw [h.rest]

theorem SameButUnallocated.refl (s : State) : SameButUnallocated s s := ⟨rfl, fun _ _ => rfl⟩

/-- The top limb of the number is below CAP, so it is the same in both. -/
theorem SameButUnallocated.topLimbZero {s t : State} (h : SameButUnallocated s t) (hlen : s.len.toNat ≤ s.cap.toNat) :
    topLimbZero t.limbs t.len.toNat = topLimbZero s.limbs s.len.toNat := by
  obtain ⟨m, rfl, hm⟩ := sameButUnallocated_iff.mp h
  exact (hm.mono hlen).topLimbZero

/-- So is the value of the number. -/
theorem SameButUnallocated.value {s t : State} (h : SameButUnallocated s t) (hlen : s.len.toNat ≤ s.cap.toNat) :
    t.value = s.value := by
  obtain ⟨m, rfl, hm⟩ := sameButUnallocated_iff.mp h
  exact (hm.mono hlen).num

/-- The two outcomes are next states that differ above CAP only, or one refusal. -/
def StepAlike (o o' : Host.Outcome State Fault Refusal) : Prop :=
  (∃ s' t', o = .next s' ∧ o' = .next t' ∧ SameButUnallocated s' t') ∨ ∃ r, o = .refused r ∧ o' = .refused r

theorem StepAlike.next {s t : State} (h : SameButUnallocated s t) : StepAlike (.next s) (.next t) :=
  .inl ⟨s, t, rfl, rfl, h⟩

theorem StepAlike.refused (r : Refusal) : StepAlike (.refused r) (.refused r) := .inr ⟨r, rfl, rfl⟩

theorem StepAlike.ite {c : Prop} [Decidable c] {a a' b b' : Host.Outcome State Fault Refusal}
    (ht : c → StepAlike a a') (he : ¬ c → StepAlike b b') :
    StepAlike (if c then a else b) (if c then a' else b') := by
  split
  next h => exact ht h
  next h => exact he h

/-! ### Commands -/

/-- The two states have the same operands latched. -/
theorem withOperands_alike {s t : State} {p : Pend} (hp : s.pend = some p) (h : SameButUnallocated s t)
    {rule rule' : Word → Word → Host.Outcome State Fault Refusal}
    (hrule : StepAlike (rule p.a0 p.a1) (rule' p.a0 p.a1)) :
    StepAlike (withOperands s rule) (withOperands t rule') := by
  rwa [withOperands_some hp, withOperands_some (h.pend.trans hp)]

theorem complete_alike {s t : State} (h : SameButUnallocated s t) : StepAlike (complete s) (complete t) := by
  obtain ⟨m, rfl, hm⟩ := sameButUnallocated_iff.mp h
  exact .next ⟨rfl, hm⟩

theorem raiseFault_alike {s t : State} (h : SameButUnallocated s t) (c : FaultCode) :
    StepAlike (raiseFault c s) (raiseFault c t) := by
  obtain ⟨m, rfl, hm⟩ := sameButUnallocated_iff.mp h
  exact .next ⟨rfl, hm⟩

/-- Whether `InvOdd_W` answers does not depend on the state, and its end writes results only. -/
theorem finishInverse_alike {s t : State} (h : SameButUnallocated s t) {w : Nat} (b : BitVec w) (k : Nat) :
    StepAlike (finishInverse b k s) (finishInverse b k t) := by
  unfold finishInverse
  cases invOdd b with
  | some y =>
    obtain ⟨m, rfl, hm⟩ := sameButUnallocated_iff.mp h
    exact complete_alike ⟨rfl, hm⟩
  | none => exact raiseFault_alike h _

theorem inverseOfOdd_alike {s t : State} (h : SameButUnallocated s t) {w : Nat} (b : BitVec w) :
    StepAlike (inverseOfOdd b s) (inverseOfOdd b t) :=
  .ite (fun _ => raiseFault_alike h _) fun _ => finishInverse_alike h b 0

theorem inverseOfOddPart_alike {s t : State} (h : SameButUnallocated s t) {w : Nat} (b : BitVec w) :
    StepAlike (inverseOfOddPart b s) (inverseOfOddPart b t) :=
  .ite (fun _ => raiseFault_alike h _) fun _ => finishInverse_alike h _ _

/-- DIVMOD reads and writes limbs below LEN only. -/
theorem divided_alike {s t : State} (h : SameButUnallocated s t) (hlen : s.len.toNat ≤ s.cap.toNat) (d : Nat) :
    SameButUnallocated (divided d s) (divided d t) := by
  obtain ⟨m, rfl, hm⟩ := sameButUnallocated_iff.mp h
  obtain ⟨hrem, hquot⟩ := hm.divLoop d hlen 0
  have hdrop : dropTopLimb (divLoop d s.len.toNat 0 m).2 s.len.toNat =
      dropTopLimb (divLoop d s.len.toNat 0 s.limbs).2 s.len.toNat := by
    rw [dropTopLimb, dropTopLimb, (hquot.mono hlen).topLimbZero]
  refine ⟨?_, hquot⟩
  simp only [divided, hrem, hdrop]

/-- The length DIVMOD leaves is at most the one it found. -/
theorem divided_len_le (s : State) {d : Nat} (hd : 0 < d) (hd64 : d < 2 ^ 64) :
    (divided d s).len.toNat ≤ s.len.toNat := by
  obtain ⟨-, -, hlen, -⟩ := divided_spec s d hd hd64
  rw [hlen]
  split <;> omega

/-- No command reads a limb at CAP or above, and NEW and RESIZE zero-fill what they allocate. -/
theorem exec_alike (i : Instr) {s t : State} {p : Pend} (hp : s.pend = some p) (hlen : s.len.toNat ≤ s.cap.toNat)
    (h : SameButUnallocated s t) : StepAlike (exec i s) (exec i t) := by
  obtain ⟨m, rfl, hm⟩ := sameButUnallocated_iff.mp h
  cases i <;> simp only [exec, execNew, execResize, execShrink, execClean, execRdlimb, execWrlimb, execSetbit,
    execUnsetbit, execForcebit, execIsbitset, execDivmod, execModinvW32, execModinvW64, execInvoddW32,
    execInvoddW64] <;> refine withOperands_alike hp h ?_
  case new =>
    exact .ite (fun _ => raiseFault_alike h _) fun _ => complete_alike ⟨rfl, hm.zeroFill (Nat.zero_le _) _⟩
  case resize =>
    exact .ite (fun _ => raiseFault_alike h _) fun _ => .ite (fun _ => raiseFault_alike h _) fun _ =>
      complete_alike ⟨rfl, hm.zeroFill le_rfl _⟩
  case shrink => exact complete_alike ⟨rfl, hm.mono hlen⟩
  case clean =>
    simp only [(hm.mono hlen).cleanScan]
    exact complete_alike ⟨rfl, hm⟩
  case rdlimb =>
    refine .ite (fun _ => raiseFault_alike h _) fun hlt => ?_
    rw [hm _ (by omega)]
    exact complete_alike ⟨rfl, hm⟩
  case wrlimb => exact .ite (fun _ => raiseFault_alike h _) fun _ => complete_alike ⟨rfl, hm.write _ _⟩
  case setbit =>
    refine .ite (fun _ => raiseFault_alike h _) fun hlt => ?_
    rw [hm _ (limbIndex_lt.mpr (by omega))]
    exact complete_alike ⟨rfl, hm.write _ _⟩
  case unsetbit =>
    refine .ite (fun _ => raiseFault_alike h _) fun hlt => ?_
    rw [hm _ (limbIndex_lt.mpr (by omega))]
    exact complete_alike ⟨rfl, hm.write _ _⟩
  case forcebit =>
    refine .ite (fun _ => raiseFault_alike h _) fun _ => .ite (fun _ => raiseFault_alike h _) fun hlt => ?_
    rw [hm _ (limbIndex_lt.mpr (by omega))]
    exact complete_alike ⟨rfl, hm.write _ _⟩
  case isbitset =>
    refine .ite (fun _ => raiseFault_alike h _) fun hlt => ?_
    rw [hm _ (limbIndex_lt.mpr (by omega))]
    exact complete_alike ⟨rfl, hm⟩
  case divmod =>
    refine .ite (fun _ => raiseFault_alike h _) fun h0 => .ite (fun _ => complete_alike ⟨rfl, hm⟩) fun h1 => ?_
    have hd : 2 ≤ p.a0.toNat := two_le_iff.mpr ⟨h0, h1⟩
    have hdiv := divided_alike h hlen p.a0.toNat
    have hdivLen : (divided p.a0.toNat s).len.toNat ≤ s.cap.toNat :=
      (divided_len_le s (by omega) p.a0.isLt).trans hlen
    rw [hdiv.topLimbZero hdivLen]
    exact .ite (fun _ => raiseFault_alike hdiv _) fun _ => complete_alike hdiv
  case invoddW32 => exact .ite (fun _ => raiseFault_alike h _) fun _ => inverseOfOdd_alike h _
  case invoddW64 => exact inverseOfOdd_alike h _
  case modinvW32 => exact .ite (fun _ => raiseFault_alike h _) fun _ => inverseOfOddPart_alike h _
  case modinvW64 => exact inverseOfOddPart_alike h _

/-- The completion step: an illegal word reads no limb at all. -/
theorem completion_alike {s t : State} {p : Pend} (hp : s.pend = some p) (hlen : s.len.toNat ≤ s.cap.toNat)
    (h : SameButUnallocated s t) : StepAlike (completion s) (completion t) := by
  have hp' : t.pend = some p := h.pend.trans hp
  cases hdec : decode p.word with
  | ok i => simpa only [completion, hp, hp', hdec] using exec_alike i hp hlen h
  | error e => simpa only [completion, hp, hp', hdec] using raiseFault_alike h _

theorem blockTurn_alike {s t : State} (hs : s.Inv) (h : SameButUnallocated s t) :
    StepAlike (blockTurn s) (blockTurn t) := by
  simp only [blockTurn, h.status]
  refine .ite (fun _ => .next h) fun hf => .ite (fun hb => ?_) fun _ => .next h
  obtain ⟨p, hp⟩ := Option.isSome_iff_exists.mp (hs.pend_iff_busy.trans hb)
  exact completion_alike hp (hs.lengths (by simpa using hf)).1 h

/-! ### Accesses and statements of the host -/

/-- A change of the host's side that does not look at the limbs. -/
theorem SameButUnallocated.setHost {s t : State} (h : SameButUnallocated s t) (f : HostCtx → HostCtx) :
    SameButUnallocated { s with host := f s.host } { t with host := f t.host } := by
  obtain ⟨m, rfl, hm⟩ := sameButUnallocated_iff.mp h
  exact ⟨rfl, hm⟩

theorem SameButUnallocated.advance {s t : State} (h : SameButUnallocated s t) :
    SameButUnallocated s.advance t.advance :=
  h.setHost fun c => { c with pos := c.pos + 1 }

theorem SameButUnallocated.setVar {s t : State} (h : SameButUnallocated s t) (hv : HVar) (w : Word) :
    SameButUnallocated (s.setVar hv w) (t.setVar hv w) :=
  h.setHost fun c => { c with vars := Memory.write c.vars hv w }

/-- No register shows a limb. -/
theorem readReg_alike {s t : State} (h : SameButUnallocated s t) (r : HostReg) :
    (readReg r t).1 = (readReg r s).1 ∧ SameButUnallocated (readReg r s).2 (readReg r t).2 := by
  obtain ⟨m, rfl, hm⟩ := sameButUnallocated_iff.mp h
  by_cases hshown : s.status.busy = false ∨ r.hiddenWhileBusy = false
  · rw [readReg_of_shown hshown, readReg_of_shown (s := { s with limbs := m }) hshown]
    exact ⟨by cases r <;> rfl, h⟩
  · obtain ⟨hb, hr⟩ : s.status.busy = true ∧ r.hiddenWhileBusy = true := by simpa using hshown
    rw [readReg_of_hidden hr hb, readReg_of_hidden (s := { s with limbs := m }) hr hb]
    exact ⟨rfl, rfl, hm⟩

theorem readInto_alike {s t : State} (h : SameButUnallocated s t) (hv : HVar) (r : HostReg) :
    SameButUnallocated (readInto hv r s) (readInto hv r t) := by
  obtain ⟨hval, hst⟩ := readReg_alike h r
  rw [readInto, readInto, hval]
  exact (hst.setVar hv _).advance

theorem waitTurn_alike {s t : State} (h : SameButUnallocated s t) :
    SameButUnallocated (waitTurn s) (waitTurn t) := by
  obtain ⟨hval, hst⟩ := readReg_alike h .status
  simp only [waitTurn, hval]
  split
  · exact hst.setVar tVar _
  · exact (hst.setVar tVar _).advance

/-- A guarded write that does not look at limbs above CAP: a collision draws every limb anew. -/
theorem guardedWrite_alike {effect : State → State} {s t : State} (h : SameButUnallocated s t)
    (heffect : s.status.fault = false → SameButUnallocated (effect s) (effect t)) :
    SameButUnallocated (guardedWrite effect s) (guardedWrite effect t) := by
  obtain ⟨m, rfl, hm⟩ := sameButUnallocated_iff.mp h
  simp only [guardedWrite]
  split
  · exact h
  next hf =>
    split
    · exact .refl s.collided
    · exact heffect (by simpa using hf)

/-- An issue depends on the limbs through the value only, by way of LATENCY (log entry 17). -/
theorem issued_alike {s t : State} (h : SameButUnallocated s t) (hlen : s.len.toNat ≤ s.cap.toNat) (v : Word) :
    SameButUnallocated (s.issued v) (t.issued v) := by
  have hvalue := h.value hlen
  obtain ⟨m, rfl, hm⟩ := sameButUnallocated_iff.mp h
  refine ⟨?_, hm⟩
  simp only [State.issued, State.latencyInput, hvalue]

theorem writeReg_alike {s t : State} (hs : s.Inv) (h : SameButUnallocated s t) (r : HostReg) (v : Word) :
    SameButUnallocated (writeReg r v s) (writeReg r v t) := by
  obtain ⟨m, rfl, hm⟩ := sameButUnallocated_iff.mp h
  cases r with
  | cmd => exact guardedWrite_alike h fun hf => issued_alike h (hs.lengths hf).1 v
  | arg0 => exact guardedWrite_alike (effect := fun u => { u with arg0 := v }) h fun _ => ⟨rfl, hm⟩
  | arg1 => exact guardedWrite_alike (effect := fun u => { u with arg1 := v }) h fun _ => ⟨rfl, hm⟩
  | res0 | res1 | status | len | cap | param => exact h

theorem jumpTo_alike {s t : State} (h : SameButUnallocated s t) (l : Nat) :
    StepAlike (jumpTo l s) (jumpTo l t) := by
  have hhost := h.host
  rw [jumpTo, jumpTo, hhost]
  cases labelPos l s.host.prog with
  | none => exact .refused _
  | some k => exact .next (hhost ▸ h.setHost fun c => { c with pos := k })

theorem branch_alike {s t : State} (h : SameButUnallocated s t) (c : Bool) (l : Nat) :
    StepAlike (branch c l s) (branch c l t) :=
  .ite (fun _ => jumpTo_alike h l) fun _ => .next h.advance

theorem hostStmt_alike {s t : State} (hs : s.Inv) (h : SameButUnallocated s t) (st : HostStmt) :
    StepAlike (hostStmt st s) (hostStmt st t) := by
  have hhost := h.host
  cases st with
  | wr r v =>
    simp only [hostStmt, hhost]
    exact .next (writeReg_alike hs h r _).advance
  | cmd i => exact .next (writeReg_alike hs h .cmd _).advance
  | wait => exact .next (waitTurn_alike h)
  | rd hv r => exact .next (readInto_alike h hv r)
  | label l => exact .next h.advance
  | bnez hv l =>
    simp only [hostStmt, hhost]
    exact branch_alike h _ l
  | beqz hv l =>
    simp only [hostStmt, hhost]
    exact branch_alike h _ l
  | push v => exact .next (h.setHost fun c => { c with out := c.out ++ [v.get c] }).advance
  | halt => exact .next (h.setHost fun c => { c with mode := .halted })
  | stopIfFault hv =>
    simp only [hostStmt, hhost]
    exact .ite (fun _ => .next (hhost ▸ h.setHost fun c => { c with mode := .faultReport })) fun _ => .next h.advance
  | memRead hv addr size =>
    cases hacc : accessReg addr size with
    | ok r => simpa only [hostStmt, hacc] using StepAlike.next (readInto_alike h hv r)
    | error e => simpa only [hostStmt, hacc] using StepAlike.refused e
  | memWrite addr size v =>
    cases hacc : accessReg addr size with
    | ok r => simpa only [hostStmt, hacc, hhost] using StepAlike.next (writeReg_alike hs h r _).advance
    | error e => simpa only [hostStmt, hacc] using StepAlike.refused e
  | otherHost => exact .refused _

theorem hostTurn_alike {s t : State} (hs : s.Inv) (h : SameButUnallocated s t) :
    StepAlike (hostTurn s) (hostTurn t) := by
  have hhost := h.host
  rw [hostTurn, hostTurn, hhost]
  cases s.host.mode with
  | running =>
    cases s.host.prog[s.host.pos]? with
    | some st => exact hostStmt_alike hs h st
    | none => exact .next h
  | halted | faultReport => exact .next h

/-! ### The step -/

theorem SameButUnallocated.popTurn {s t : State} (h : SameButUnallocated s t) :
    SameButUnallocated s.popTurn t.popTurn := by
  obtain ⟨m, rfl, hm⟩ := sameButUnallocated_iff.mp h
  exact ⟨rfl, hm⟩

theorem SameButUnallocated.turn {s t : State} (h : SameButUnallocated s t) : t.turn = s.turn := by
  obtain ⟨m, rfl, -⟩ := sameButUnallocated_iff.mp h
  rfl

/-- Reset draws every limb anew. -/
theorem resetBlock_alike {s t : State} (h : SameButUnallocated s t) :
    SameButUnallocated s.resetBlock t.resetBlock := by
  obtain ⟨m, rfl, -⟩ := sameButUnallocated_iff.mp h
  exact .refl s.resetBlock

theorem takeTurn_alike (a : Turn) {s t : State} (hs : s.Inv) (h : SameButUnallocated s t) :
    StepAlike (takeTurn a s) (takeTurn a t) := by
  cases a with
  | host => exact hostTurn_alike hs h
  | block => exact blockTurn_alike hs h
  | reset => exact .next (resetBlock_alike h)

/-- Settles O28: the two states have the same turn, and each agent's turn runs alike on them. -/
theorem unallocatedLimbsAreNeverObservable : Obligations.UnallocatedLimbsAreNeverObservable := by
  intro s t hs h
  rw [step, step, h.turn]
  exact takeTurn_alike s.turn hs.popTurn h.popTurn

end Sys2Proof.Machine
end

section
/-! SUPPORT. Whose turn it is and what it changes (R9, R36, R37): the statements about one step, about results, and
about the end of a command in flight. -/

namespace Sys2Proof.Machine

/-! ### Turns -/

/-- Settles O24: neither the fault state nor an idle block has a completion step. -/
theorem idleBlockKeepsItsState : Obligations.IdleBlockKeepsItsState := by
  intro s hb
  simp [blockTurn, hb]

/-- With a command in flight, the block's turn is its completion step. -/
theorem blockTurn_of_busy {s : State} (hf : s.status.fault = false) (hb : s.status.busy = true) :
    blockTurn s = completion s := by
  simp [blockTurn, hf, hb]

/-- The completion step of a legal word is its command (R76). -/
theorem completion_of_decode_ok {s : State} {p : Pend} {i : Instr} (hp : s.pend = some p)
    (hi : decode p.word = .ok i) : completion s = exec i s := by
  simp [completion, hp, hi]

/-- On the block's turn with a command in flight, the step is the completion step on the state less the turn, which is
no part of LATENCY. -/
theorem step_of_turn_block {s : State} (hturn : s.turn = .block) (hf : s.status.fault = false)
    (hb : s.status.busy = true) : step s = completion { s with schedule := s.schedule.tail } := by
  rw [step, hturn, popTurn_of_block hturn, takeTurn]
  exact blockTurn_of_busy hf hb

/-- Settles O22: the latched word is not touched by using up the turn. -/
theorem stepRunsLatchedCommand : Obligations.StepRunsLatchedCommand := by
  intro s p hturn hf hb hp
  have hstep := step_of_turn_block hturn hf hb
  exact ⟨hstep, fun i hi => hstep.trans (completion_of_decode_ok hp hi)⟩

/-- A running host with a statement at its position runs it. -/
theorem hostTurn_of_running {s : State} {st : HostStmt} (hmode : s.host.mode = .running)
    (hst : s.host.prog[s.host.pos]? = some st) : hostTurn s = hostStmt st s := by
  simp [hostTurn, hmode, hst]

/-- The turn counts against LATENCY when nothing is listed and a command is in flight (log entry 3). -/
theorem popTurn_eq (s : State) : s.popTurn =
    { s with
      schedule := s.schedule.tail
      latency := if s.schedule = [] ∧ s.status.busy = true then s.latency - 1 else s.latency } := by
  simp only [State.popTurn, State.turnCounts, Bool.and_eq_true, List.isEmpty_iff]

/-- Settles O25: using up the turn leaves the host's mode, program and position. -/
theorem hostTurnRunsItsStatement : Obligations.HostTurnRunsItsStatement := by
  intro s st hturn hmode hst
  rw [← popTurn_eq, step, hturn, takeTurn, hostTurn_of_running (s := s.popTurn) hmode hst]

/-- Settles O11: the schedule's head is the turn, and the reset turn touches neither the host nor the rest of the
schedule. -/
theorem resetTurnKeepsHostSide : Obligations.ResetTurnKeepsHostSide := by
  intro s rest hsched
  refine ⟨_, step_of_turn_reset (turn_of_schedule hsched), rfl, ?_, rfl⟩
  simp [popTurn_eq, hsched]

/-- Settles O14: an issue is the guarded write of an idle block, and a turn is the schedule's head or, with none listed,
decided by the LATENCY left. -/
theorem issueDrawsOpenLatency : Obligations.IssueDrawsOpenLatency := by
  refine ⟨fun s v hf hb => ?issue, fun s hsched hb => ?unlisted, fun s t rest hsched => ?listed⟩
  case issue => rw [writeReg, guardedWrite_of_idle _ hf hb, State.issued_latency]; rfl
  case unlisted =>
    rw [turn_of_no_schedule hsched, popTurn_eq]
    refine ⟨fun h0 => by simp [hb, h0], fun h0 => ⟨by simp [h0], ?_⟩⟩
    simp only [hsched, hb, and_self, if_true]
    omega
  case listed => exact ⟨turn_of_schedule hsched, by simp [popTurn_eq, hsched]⟩

/-! ### The end of a command (R37, R201) -/

/-- However a command ends, PEND is empty and BUSY is cleared. -/
theorem ends_idle {s t : State} (h : CompletedFrom s t ∨ ∃ c, c ≠ .none ∧ FaultedFrom c s t) :
    OperandsSame s t ∧ t.pend = none ∧ t.status.busy = false := by
  rcases h with h | ⟨c, -, h⟩
  · exact ⟨h.toOperandsSame, h.pend, by rw [h.status]⟩
  · exact ⟨h.toOperandsSame, h.pend, by rw [h.status]⟩

/-- Settles O29: the operands are in the frame of both ends of a command. -/
theorem commandsKeepOperandRegisters : Obligations.CommandsKeepOperandRegisters :=
  fun _ _ _ h => ends_idle (exec_ends h)

/-- With a command in flight, the completion step answers. -/
theorem completion_answers {s : State} {p : Pend} (hp : s.pend = some p) : ∃ t, completion s = .next t := by
  cases hdec : decode p.word with
  | ok i =>
    rw [completion_of_decode_ok hp hdec]
    exact exec_answers i s p hp
  | error e =>
    rw [completion_of_decode_error hp hdec]
    exact ⟨_, rfl⟩

/-- Settles O23: the step answers, and completion and fault differ in DONE and ERRCODE. -/
theorem completionStepEndsCommand : Obligations.CompletionStepEndsCommand := by
  intro s p hp hf
  obtain ⟨t, ht⟩ := completion_answers hp
  have hends := completion_ends ht
  obtain ⟨hops, hpend, hbusy⟩ := ends_idle hends
  refine ⟨t, ht, hpend, hbusy, ?_, ?_, hops⟩
  · rcases hends with h | ⟨c, -, h⟩ <;> simp [h.status, hf]
  · rcases hends with h | ⟨c, -, h⟩ <;> simp [h.status]

/-! ### The codes commands raise (R200) -/

/-- An inverse command raises OPERAND_VIOLATION or keeps ERRCODE: it never raises INVARIANT_VIOLATION, since every odd
word has an inverse. -/
theorem inverse_err_ne_invariantViolation {i : Instr} (hi : i ∈ [Instr.invoddW32, .invoddW64, .modinvW32, .modinvW64])
    {s t : State} (herr : s.status.err = .none) (h : exec i s = .next t) : t.status.err ≠ .invariantViolation := by
  obtain ⟨p, u, hp, -⟩ := exec_cases h
  obtain ⟨cause, hrule⟩ := inverse_operandFaultOnly hi hp
  rw [ne_eq, ← endsWith_iff_of_next h]
  by_cases hc : cause
  · rw [(hrule.traps hc).endsWith_iff]
    decide
  · obtain ⟨t', ht', hdone⟩ := hrule.completes hc
    exact not_endsWith_of_completedFrom ht' hdone herr (by decide)

/-- Settles O30: a completion keeps ERRCODE 0, and the faults of a command are those `exec_cases` lists, of which the
inverse commands cannot raise INVARIANT_VIOLATION. -/
theorem faultCodesRaisedBy : Obligations.FaultCodesRaisedBy := by
  intro i s t herr h
  obtain ⟨p, u, -, hupd, rfl | ⟨rfl, c, rfl, hc⟩ | ⟨rfl, -, -, rfl⟩⟩ := exec_cases h
  · simp [hupd.status, herr]
  · rcases hc with ⟨rfl, hi⟩ | ⟨rfl, hi⟩ | ⟨rfl, hi⟩ | ⟨rfl, hi⟩
    · simpa using hi
    · simpa using hi
    · simpa using hi
    · exact absurd rfl (inverse_err_ne_invariantViolation hi herr h)
  · simp

/-! ### Operands that are not read (R74) -/

/-- Settles O33: the rule of such a command does not name the operand, and its end overwrites PEND. -/
theorem unusedOperandsAreNotRead : Obligations.UnusedOperandsAreNotRead := by
  intro i s w a0 a1 b0 b1
  constructor
  · rintro ⟨hwr, hforce⟩
    cases i with
    | wrlimb => exact absurd rfl hwr
    | forcebit => exact absurd rfl hforce
    | new | resize | shrink | clean | rdlimb | setbit | unsetbit | isbitset | divmod | modinvW32 | modinvW64
      | invoddW32 | invoddW64 => rfl
  · rintro (rfl | rfl) <;> rfl

/-! ### What changes L, LEN, CAP, RES0 and RES1 -/

theorem IdleWrite.dataSame {s t : State} (h : IdleWrite s t) : DataSame s t := by
  obtain ⟨v, rfl | rfl | rfl⟩ := h <;> exact ⟨fun _ => rfl, rfl, rfl, rfl, rfl⟩

/-- Settles O26: of what the turns can do, only these three change the data. -/
theorem onlyTheseStepsChangeResults : Obligations.OnlyTheseStepsChangeResults := by
  intro s t hstep hchanged
  have hkept (h : DataSame s.popTurn t) : False := hchanged (s.popTurn_blockSame.data.trans h)
  rw [step] at hstep
  cases hturn : s.turn with
  | reset => exact .inl rfl
  | block =>
    rw [hturn] at hstep
    rcases blockTurn_effect hstep with rfl | ⟨hf, hb, hcompl⟩
    · exact (hkept (dataSame_refl _)).elim
    · obtain ⟨-, hpend, hbusy⟩ := ends_idle (completion_ends hcompl)
      exact .inr (.inl ⟨rfl, hb, hf, hpend, hbusy⟩)
  | host =>
    rw [hturn] at hstep
    rcases hostTurn_effect hstep with hside | ⟨hf, hb, rfl⟩ | ⟨-, -, hwrite⟩
    · exact (hkept hside.block.data).elim
    · exact .inr (.inr ⟨rfl, hb, hf, rfl⟩)
    · exact (hkept hwrite.dataSame).elim

/-! ### A command in flight ends (R9, R37) -/

/-- A run that goes on runs on from the next state. -/
theorem core_run_succ {s t : State} (h : step s = .next t) (k : Nat) : core.run (k + 1) s = core.run k t := by
  have hcore : core.step s = .next t := h
  simp only [Host.Core.run, hcore]

/-- A refusal ends the run. -/
theorem core_run_one_of_refused {s : State} {r : Refusal} (h : step s = .refused r) : core.run 1 s = .refused r := by
  have hcore : core.step s = .refused r := h
  simp only [Host.Core.run, hcore]

/-- Within `n` steps BUSY has been 0 or a host statement has been refused. -/
def EndsWithin (n : Nat) (s : State) : Prop :=
  ∃ k, k ≤ n ∧ ((∃ t, core.run k s = .next t ∧ t.status.busy = false) ∨ ∃ r, core.run k s = .refused r)

theorem endsWithin_of_idle {s : State} (hb : s.status.busy = false) (n : Nat) : EndsWithin n s :=
  ⟨0, Nat.zero_le n, .inl ⟨s, rfl, hb⟩⟩

theorem EndsWithin.of_step {s t : State} {n : Nat} (h : step s = .next t) (ht : EndsWithin n t) :
    EndsWithin (n + 1) s := by
  obtain ⟨k, hk, hend⟩ := ht
  refine ⟨k + 1, by omega, ?_⟩
  rwa [core_run_succ h]

theorem endsWithin_of_refused {s : State} {r : Refusal} (h : step s = .refused r) (n : Nat) : EndsWithin (n + 1) s :=
  ⟨1, by omega, .inr ⟨r, core_run_one_of_refused h⟩⟩

/-- Every agent's turn ends the wait, but for a host turn that leaves the command in flight; such a turn takes one off
the turns listed and the LATENCY left. -/
theorem endsWithin_of_busy {s : State} (hs : s.Inv) (hb : s.status.busy = true) :
    EndsWithin (s.schedule.length + s.latency + 1) s := by
  have hf : s.status.fault = false := by simpa [hb] using hs.not_busy_and_fault
  cases hturn : s.turn with
  | reset => exact .of_step (step_of_turn_reset hturn) (endsWithin_of_idle rfl _)
  | block =>
    obtain ⟨p, hp⟩ := Option.isSome_iff_exists.mp (hs.pend_iff_busy.trans hb)
    obtain ⟨t, ht⟩ := completion_answers (s := { s with schedule := s.schedule.tail }) hp
    obtain ⟨-, -, hidle⟩ := ends_idle (completion_ends ht)
    exact .of_step ((step_of_turn_block hturn hf hb).trans ht) (endsWithin_of_idle hidle _)
  | host =>
    have hstep : step s = hostTurn s.popTurn := by rw [step, hturn, takeTurn]
    rcases hostTurn_answers s.popTurn with ⟨t, ht⟩ | ⟨r, hr⟩
    · rcases hostTurn_effect ht with hside | ⟨-, -, rfl⟩ | ⟨-, hidle, -⟩
      · have hless := popTurn_measure hb hturn
        have hbusy : t.status.busy = true := by rw [hside.block.status]; exact hb
        have hrec := endsWithin_of_busy (hside.inv hs.popTurn) hbusy
        rw [hside.schedule, hside.latency, hless] at hrec
        exact .of_step (hstep.trans ht) hrec
      · exact .of_step (hstep.trans ht) (endsWithin_of_idle rfl _)
      · exact absurd (hidle.symm.trans hb) (by decide)
    · exact endsWithin_of_refused (hstep.trans hr) _
termination_by s.schedule.length + s.latency
decreasing_by rw [hside.schedule, hside.latency]; omega

/-- Settles O27: the bound counts the turns listed and the LATENCY left, and one turn more for the completion step. -/
theorem busyCommandEndsUnlessRefused : Obligations.BusyCommandEndsUnlessRefused :=
  fun _ hs hb => endsWithin_of_busy hs hb

end Sys2Proof.Machine
end

section
/-! SUPPORT. Command words and bus bytes (R55, R70 to R76), the STATUS word (R26), and the host's accesses and
statements (R20, R53, R64, R79): the rules, and the statements settled by them. -/

namespace Sys2Proof.Machine

/-! ### Byte lanes (R55) -/

theorem toLanes_length (n v : Nat) : (toLanes n v).length = n := by
  induction n generalizing v with
  | zero => rfl
  | succ n ih => rw [toLanes, List.length_cons, ih]

/-- Lane `k` is the value shifted right by `k` bytes, cut to a byte. -/
theorem toLanes_getElem? (n v : Nat) {k : Nat} (hk : k < n) :
    (toLanes n v)[k]? = some (BitVec.ofNat 8 (v / 2 ^ (8 * k))) := by
  induction n generalizing v k with
  | zero => omega
  | succ n ih =>
    cases k with
    | zero => simp [toLanes]
    | succ k => rw [toLanes, List.getElem?_cons_succ, ih _ (by omega), Nat.div_div_eq_div_mul, ← pow_add]; ring_nf

/-- Reading the lanes back gives the value, cut to their width. -/
theorem ofLanes_toLanes (n v : Nat) : ofLanes (toLanes n v) = v % 2 ^ (8 * n) := by
  induction n generalizing v with
  | zero => simp [toLanes, ofLanes, Nat.mod_one]
  | succ n ih =>
    rw [toLanes, ofLanes, ih, BitVec.toNat_ofNat, show 8 * (n + 1) = 8 + 8 * n by ring, pow_add, Nat.mod_mul]

/-- The eight bytes of a write of CMD decode as its word. -/
theorem decodeBytes_toLanes (c : Word) : decodeBytes (toLanes 8 c.toNat) = decode c := by
  rw [decodeBytes, if_pos (toLanes_length 8 _), ofLanes_toLanes, Nat.mod_eq_of_lt c.isLt, BitVec.ofNat_toNat,
    BitVec.setWidth_eq]

/-- Settles O6: a lane is a slice of the word, and the lanes read back are the word. -/
theorem busBytesAreLittleEndian : Obligations.BusBytesAreLittleEndian := by
  intro c
  refine ⟨toLanes_length 8 _, fun k hk => ?_, decodeBytes_toLanes c⟩
  rw [toLanes_getElem? 8 _ hk, BitVec.extractLsb', Nat.shiftRight_eq_div_pow]

/-! ### Command words (R70 to R76) -/

/-- Settles O5: the fields of the static check are those by which the decoder finds a row of the map. -/
theorem decoderAgreesWithStaticCheck : Obligations.DecoderAgreesWithStaticCheck := exists_decode_ok_iff_wf

/-- Settles O1: nine closed words. -/
theorem sampleCommandWordsDecode : Obligations.SampleCommandWordsDecode := by
  unfold Obligations.SampleCommandWordsDecode
  decide

/-- Settles O2: a word that decodes passes the static check, and its bytes decode as it does. -/
theorem encodedCommandDecodesBack : Obligations.EncodedCommandDecodesBack := by
  intro i
  have hdec := decode_encode i
  exact ⟨(exists_decode_ok_iff_wf _).mp ⟨i, hdec⟩, hdec, (decodeBytes_toLanes _).trans hdec⟩

/-! ### The STATUS word (R26, R200) -/

/-- The STATUS word bit by bit: BUSY, DONE and FAULT in bits 0 to 2, and from bit 8 the code, whose bits end at 11. -/
theorem Status.getLsbD_word (st : Status) (i : Nat) : st.word.getLsbD i =
    if i = 0 then st.busy else if i = 1 then st.done else if i = 2 then st.fault
    else decide (8 ≤ i) && st.err.code.getLsbD (i - 8) := by
  change BitVec.getLsbD (w := 52 + 4 + 5 + 1 + 1 + 1) _ i = _
  simp only [Status.word, BitVec.getLsbD_append, BitVec.getLsbD_ofBool]
  obtain _ | _ | _ | i := i
  · simp
  · simp
  · simp
  · rcases Nat.lt_or_ge i 5 with hlow | hhigh
    · simp [hlow]
    · by_cases hcode : i - 5 < 4
      · simp [hhigh, hcode]
      · simp [hhigh, hcode, BitVec.getLsbD_of_ge _ _ (Nat.not_lt.mp hcode)]

/-- From bit 3 up the word holds the code only. -/
theorem Status.getLsbD_word_of_three_le (st : Status) {i : Nat} (hi : 3 ≤ i) :
    st.word.getLsbD i = (decide (8 ≤ i) && st.err.code.getLsbD (i - 8)) := by
  rw [st.getLsbD_word, if_neg (by omega), if_neg (by omega), if_neg (by omega)]

/-- Settles O12: each field is read off the word's bits. -/
theorem statusWordShowsFields : Obligations.StatusWordShowsFields := by
  intro st
  have hcode : st.err.code = st.word.extractLsb' 8 4 := by
    refine BitVec.eq_of_getLsbD_eq fun i hi => ?_
    rw [BitVec.getLsbD_extractLsb', st.getLsbD_word_of_three_le (by omega)]
    simp [hi]
  refine ⟨st.getLsbD_word 0, st.getLsbD_word 1, st.getLsbD_word 2, ?_, ?_, ?_, hcode⟩
  · refine BitVec.eq_of_getLsbD_eq fun i hi => ?_
    have hlow : ¬ 8 ≤ 3 + i := by omega
    rw [BitVec.getLsbD_extractLsb', st.getLsbD_word_of_three_le (by omega)]
    simp [hlow]
  · refine BitVec.eq_of_getLsbD_eq fun i hi => ?_
    rw [BitVec.getLsbD_extractLsb', st.getLsbD_word_of_three_le (by omega), BitVec.getLsbD_of_ge _ _ (by omega)]
    simp
  · rw [← hcode]
    cases st.err <;> rfl

/-! ### Accesses (R20, R53, R64) -/

/-- Settles O18: each pair of the map is a register at its offset. -/
theorem mappedOffsetReachesRegister : Obligations.MappedOffsetReachesRegister := by
  intro s hv v off r hmem
  obtain ⟨hw, hreg⟩ := accessReg_map _ hmem
  exact hostStmt_access_ok (accessReg_of_regAt hw hreg) hv (.lit v) s

/-- No register is reached outside the window, by any width. -/
theorem accessReg_outside {addr : Nat} (h : addr < Config.base ∨ Config.base + 0x7f < addr) (size : Nat) :
    accessReg addr size = .error .outsideWindow := by
  have hoff : offsetOf addr = none := if_neg (by omega)
  rw [accessReg, hoff]

/-- Settles O20: outside the window `accessReg` finds no offset, and an access by a second host never asks it. -/
theorem foreignAccessIsRefused : Obligations.ForeignAccessIsRefused :=
  fun s hv v _ size => ⟨fun h => hostStmt_access_refused (accessReg_outside h size) hv v s, rfl⟩

/-! ### Statements of a host program (R79) -/

/-- The access to a register at its own offset. -/
theorem accessReg_off (r : HostReg) : accessReg (Config.base + r.off) 8 = .ok r :=
  accessReg_of_regAt (by have := r.off_aligned; omega) (regAt_eq_some_iff.mpr rfl)

/-- Bit 0 of the STATUS word is BUSY. -/
theorem status_word_bit_zero (st : Status) : st.word.getLsbD 0 = st.busy := (statusWordShowsFields st).1

/-- The position of a label holds that label. -/
theorem getElem?_labelPos {l k : Nat} {prog : List HostStmt} (h : labelPos l prog = some k) :
    prog[k]? = some (.label l) := by
  obtain ⟨hk, hp, -⟩ := List.findIdx?_eq_some_iff_getElem.mp h
  rw [List.getElem?_eq_getElem hk, eq_of_beq hp]

/-- A host that has halted makes no further access. -/
theorem hostTurn_of_halted {s : State} (h : s.host.mode = .halted) : hostTurn s = .next s := by
  simp [hostTurn, h]

/-- Settles O58: `wr`, `cmd` and `rd` are the raw accesses at their register's offset, and the other statements move the
host's side only. -/
theorem hostStatementsDoAsWritten : Obligations.HostStatementsDoAsWritten := by
  intro s r i hv l v
  obtain ⟨hread, hwrite⟩ := hostStmt_access_ok (accessReg_off r) hv v s
  obtain ⟨-, hcmd⟩ := hostStmt_access_ok (accessReg_off .cmd) hv (.lit (encode i)) s
  refine ⟨hwrite.symm, hcmd.symm, hread.symm, rfl, rfl, ?wait, ?rd, rfl, fun k hk => ?label, ?bnez, ?beqz, ?push,
    ?halt⟩
  case wait =>
    obtain ⟨hside, hvars, hpos⟩ := waitTurn_same s
    rw [status_word_bit_zero] at hpos
    exact ⟨_, rfl, hside.block, by rw [hvars, Memory.read_write_same], hpos⟩
  case rd =>
    obtain ⟨hside, hvars, hpos⟩ := readInto_same hv r s
    exact ⟨_, rfl, hside.block, by rw [hvars, Memory.read_write_same], hpos⟩
  case label => exact ⟨getElem?_labelPos hk, by rw [jumpTo, hk]⟩
  case bnez => simp only [hostStmt, branch, bne_iff_ne]
  case beqz => simp only [hostStmt, branch, beq_iff_eq]
  case push => exact ⟨_, rfl, blockSame_of_host s _, rfl, rfl⟩
  case halt => exact ⟨_, rfl, blockSame_of_host s _, hostTurn_of_halted rfl⟩

end Sys2Proof.Machine
end

section
/-! SUPPORT. The data commands in sequence: the bit-access laws (R124), the results of DIVMOD (R141 to R144, R233), the
uniqueness of the inverse (R165), and a block without storage (R232), with the statements settled by them. -/

namespace Sys2Proof.Machine

/-! ### Bit access (R124) -/

/-- Stores that agree bit by bit agree limb by limb. -/
theorem read_eq_of_bits {m m' : Memory} {i : Nat}
    (h : ∀ j, j < 64 → (Memory.read m' i).getLsbD j = (Memory.read m i).getLsbD j) :
    Memory.read m' i = Memory.read m i :=
  BitVec.eq_of_getLsbD_eq h

/-- ISBITSET below LEN answers and reads the bit. -/
theorem isbitset_latched {s : State} {pos : Word} (h : pos.toNat < s.len.toNat * 64) :
    ∃ u, exec .isbitset (s.latch .isbitset pos 0) = .next u ∧
      u.res0 = if (Memory.read s.limbs (limbIndex pos)).getLsbD (limbOffset pos) then 1 else 0 := by
  obtain ⟨-, hread⟩ := isbitsetReadsOneBit (s.latch .isbitset pos 0) _ rfl
  obtain ⟨u, hu, -, hres, -⟩ := hread h
  exact ⟨u, hu, hres⟩

/-- Settles O45: each clause puts the bits that two of the commands leave side by side. -/
theorem bitAccessLaws : Obligations.BitAccessLaws := by
  rintro s pos ⟨hlen, -⟩
  have hforce (v : Word) (hv : v.toNat ≤ 1) (hpos : pos.toNat < s.cap.toNat * 64) :=
    (forcebitAssignsOneBit (s.latch .forcebit pos v) _ rfl).2.2 hv hpos
  refine ⟨fun hpos => ?set, fun hpos => ?force, fun hpos => ?unset⟩
  case set =>
    obtain ⟨-, hset⟩ := setbitSetsOneBit (s.latch .setbit pos 0) _ rfl
    obtain ⟨t, ht, -, htbits, htlen, htcap, -⟩ := hset hpos
    obtain ⟨f, hf, -, hfbits, hflen, hfcap, -⟩ := hforce 1 (by decide) hpos
    simp only [State.latch_limbs, State.latch_len, State.latch_cap] at htbits htlen htcap hfbits hflen hfcap
    have hcover : pos.toNat < t.len.toNat * 64 := limbIndex_lt.mp (by omega)
    obtain ⟨u, hu, hres⟩ := isbitset_latched hcover
    refine ⟨t, u, ht, hu, ?_, htcap, by omega, f, hf, fun i => read_eq_of_bits fun j hj => ?_,
      BitVec.eq_of_toNat_eq (hflen.trans htlen.symm), hfcap⟩
    · rw [hres, htbits _ _ (limbOffset_lt pos)]
      simp
    · rw [hfbits i j hj, htbits i j hj]
      by_cases hbit : i = limbIndex pos ∧ j = limbOffset pos <;> simp [hbit]
  case force =>
    obtain ⟨f, hf, -, -, hflen, hfcap, -⟩ := hforce 0 (by decide) hpos
    exact ⟨f, hf, hfcap, hflen ▸ le_max_left _ _⟩
  case unset =>
    obtain ⟨-, hunset⟩ := unsetbitClearsOneBit (s.latch .unsetbit pos 0) _ rfl
    obtain ⟨t, ht, -, htbits, htlen, htcap, -⟩ := hunset hpos
    obtain ⟨f, hf, -, hfbits, hflen, -⟩ := hforce 0 (by decide) (by omega)
    simp only [State.latch_limbs, State.latch_len, State.latch_cap] at htbits htlen htcap hfbits hflen
    obtain ⟨u, hu, hres⟩ := isbitset_latched (s := t) (by rwa [htlen])
    have hindex := limbIndex_lt.mpr hpos
    refine ⟨t, u, f, ht, hu, ?_, htcap, htlen, hf, fun i => read_eq_of_bits fun j hj => ?_,
      BitVec.eq_of_toNat_eq ?_⟩
    · rw [hres, htbits _ _ (limbOffset_lt pos)]
      simp
    · rw [hfbits i j hj, htbits i j hj]
      by_cases hbit : i = limbIndex pos ∧ j = limbOffset pos <;> simp [hbit]
    · rw [hflen, htlen]
      omega

/-! ### DIVMOD (R141 to R144, R233) -/

/-- Settles O51: a nonzero top limb makes the value nonzero. -/
theorem normalisedIsZeroExactlyAtLengthZero : Obligations.NormalisedIsZeroExactlyAtLengthZero := by
  intro s hn
  have hlen : s.len = 0 ↔ s.len.toNat = 0 := BitVec.toNat_inj.symm
  rw [hlen]
  constructor
  · intro h0
    rw [State.value, h0, Memory.num_zero]
  · intro hv
    by_contra hpos
    have htop := ((normalised_iff s).mp hn).resolve_left hpos
    have hge := value_ge s.limbs (s.len.toNat - 1) htop
    rw [Nat.sub_add_cancel (by omega)] at hge
    have hpow : 0 < 2 ^ (64 * (s.len.toNat - 1)) := by positivity
    exact absurd hv (hpow.trans_le hge).ne'

/-- Settles O47: a divisor of at least 2 leaves `divided`, whose value and remainder `divided_facts` and `divided_spec`
give, and division by 1 leaves the number. -/
theorem divmodResultLaw : Obligations.DivmodResultLaw := by
  intro s t p hp hf hexec ht
  suffices h : t.value = s.value / p.a0.toNat ∧ t.res0.toNat = s.value % p.a0.toNat ∧ 0 < p.a0.toNat by
    obtain ⟨hquot, hrem, hd⟩ := h
    refine ⟨hquot, hrem, hrem ▸ Nat.mod_lt _ hd, ?_⟩
    rw [hquot, hrem, Nat.div_add_mod']
  obtain ⟨hzero, hone, -⟩ := divmodDividesInPlace s p hp
  by_cases h0 : p.a0 = 0
  · obtain ⟨t', ht', hfault, -⟩ := hzero h0
    obtain rfl := Host.Outcome.next.inj (ht'.symm.trans hexec)
    simp [hfault.status] at ht
  by_cases h1 : p.a0 = 1
  · rw [exec_divmod_of_one hp h1] at hexec
    cases hexec
    have hd1 : p.a0.toNat = 1 := by rw [h1]; rfl
    rw [hd1, Nat.div_one, Nat.mod_one]
    exact ⟨rfl, rfl, one_pos⟩
  have hd : 2 ≤ p.a0.toNat := two_le_iff.mpr ⟨h0, h1⟩
  obtain ⟨-, -, hquot, -⟩ := divided_facts s p.a0.toNat hd p.a0.isLt
  obtain ⟨hrem, -⟩ := divided_spec s p.a0.toNat (by omega) p.a0.isLt
  rw [execDivmod_eq hp hd] at hexec
  split at hexec
  · cases hexec
    cases ht
  · cases hexec
    exact ⟨hquot, hrem, by omega⟩

/-- How DIVMOD by a divisor of at least 2 ends: with the writes of `divided`, and with the fault exactly in the case of
R142. -/
theorem exec_divmod_ends {s : State} {p : Pend} (hp : s.pend = some p) (hd : 2 ≤ p.a0.toNat) :
    exec .divmod s =
      if 2 ≤ s.len.toNat ∧ s.value / p.a0.toNat < 2 ^ (64 * (s.len.toNat - 2)) then
        raiseFault .invariantViolation (divided p.a0.toNat s)
      else complete (divided p.a0.toNat s) := by
  obtain ⟨-, -, -, -, htop⟩ := divided_facts s p.a0.toNat hd p.a0.isLt
  rw [execDivmod_eq hp hd]
  exact if_congr htop rfl rfl

/-- The BigNum of R142's example: two limbs, both zero.
Dividing it drops one limb and leaves the other, which is zero. -/
theorem divided_of_two_zero_limbs {s : State} {d : Nat} (hd : 2 ≤ d) (hd64 : d < 2 ^ 64) (hlen : s.len = 2)
    (h0 : Memory.read s.limbs 0 = 0) (h1 : Memory.read s.limbs 1 = 0) :
    s.value = 0 ∧ (divided d s).len = 1 ∧ Memory.read (divided d s).limbs 0 = 0 := by
  have hlen' : s.len.toNat = 2 := by rw [hlen]; rfl
  have hvalue : s.value = 0 := by simp [State.value, hlen', Memory.num_succ, h0, h1]
  obtain ⟨-, -, -, hdrop, -⟩ := divided_facts s d hd hd64
  obtain ⟨-, hquot, -⟩ := divided_spec s d (by omega) hd64
  refine ⟨hvalue, BitVec.eq_of_toNat_eq ?_, ?_⟩
  · rw [hdrop, hlen', hvalue, if_pos (by simp)]
    rfl
  · simp [hquot, hlen', hvalue]

/-- Settles O48: the trap condition is the one `exec_divmod_ends` decides by; a normalised BigNum does not meet it, and
two zero limbs do. -/
theorem invariantTrapExactlyWhen : Obligations.InvariantTrapExactlyWhen := by
  intro s p hp hf hd
  have hexec := exec_divmod_ends hp hd
  have hzeros := divided_of_two_zero_limbs (s := s) hd p.a0.isLt
  by_cases htrap : 2 ≤ s.len.toNat ∧ s.value / p.a0.toNat < 2 ^ (64 * (s.len.toNat - 2))
  · rw [if_pos htrap] at hexec
    refine ⟨_, hexec, iff_of_true rfl htrap, fun _ => rfl, fun hn => absurd htrap (norm_quot hn hd p.a0.isLt),
      fun hlen h0 h1 => ?_⟩
    obtain ⟨-, hone, hlimb⟩ := hzeros hlen h0 h1
    exact ⟨hone, hlimb, rfl⟩
  · rw [if_neg htrap] at hexec
    have hdone : (divided p.a0.toNat s).completed.status.fault = false := hf
    refine ⟨_, hexec, iff_of_false (fun h => ?_) htrap, fun h => ?_,
      fun hn => ⟨hdone, rfl, (div_norm hp hd hn).2⟩, fun hlen h0 h1 => ?_⟩
    · rw [h] at hdone
      cases hdone
    · rw [hdone] at h
      cases h
    · obtain ⟨hvalue, -⟩ := hzeros hlen h0 h1
      exact absurd (by simp [hlen, hvalue]) htrap

/-- A DIVMOD of an unfaulted normalised BigNum by at least 2: it completes, stays normalised, and splits the value into
quotient and remainder. -/
theorem divmod_latched {s : State} (hf : s.status.fault = false) (hn : s.normalised = true) {d : Word}
    (hd : 2 ≤ d.toNat) :
    ∃ t, exec .divmod (s.latch .divmod d 0) = .next t ∧ t.status.fault = false ∧ t.status.done = true ∧
      t.normalised = true ∧ t.value = s.value / d.toNat ∧ t.res0.toNat = s.value % d.toNat := by
  obtain ⟨hexec, hn'⟩ := div_norm (s := s.latch .divmod d 0) rfl hd hn
  obtain ⟨-, -, hquot, -⟩ := divided_facts (s.latch .divmod d 0) d.toNat hd d.isLt
  obtain ⟨hrem, -⟩ := divided_spec (s.latch .divmod d 0) d.toNat (by omega) d.isLt
  exact ⟨_, hexec, hf, rfl, hn', hquot, hrem⟩

/-- Settles O50: CLEAN leaves a normalised BigNum of the same value. -/
theorem cleanThenDivmodCompletes : Obligations.CleanThenDivmodCompletes := by
  intro s p d hp hf hd
  obtain ⟨u, hexec, hfault, hdone, hn, hquot, hrem⟩ :=
    divmod_latched (s := s.cleaned.completed) hf s.cleaned_normalised hd
  have hvalue : s.cleaned.completed.value = s.value := s.cleaned_value
  rw [hvalue] at hquot hrem
  exact ⟨_, u, exec_clean hp, hexec, hfault, hdone, hn, hquot, hrem⟩

/-! ### Repeated division (R144) -/

/-- A DIVMOD that completes is followed by the rest of the run. -/
theorem divideTimes_succ {d : Word} {s t : State} (hexec : exec .divmod (s.latch .divmod d 0) = .next t)
    (hf : t.status.fault = false) (k : Nat) :
    divideTimes d (k + 1) s = (divideTimes d k t).map fun r => (t.res0 :: r.1, r.2) := by
  simp only [divideTimes, hexec, hf, Bool.false_eq_true, if_false]

/-- As long as digits are left, each DIVMOD takes the lowest one off the value: the remainders so far, followed by the
digits of what is left, are the digits of the value at the start. -/
theorem divideTimes_digits {d : Word} (hd : 2 ≤ d.toNat) (k : Nat) {s : State} (hf : s.status.fault = false)
    (hn : s.normalised = true) (hk : k ≤ (Nat.digits d.toNat s.value).length) :
    ∃ rs t, divideTimes d k s = some (rs, t) ∧ t.normalised = true ∧ rs.length = k ∧
      rs.map BitVec.toNat ++ Nat.digits d.toNat t.value = Nat.digits d.toNat s.value := by
  induction k generalizing s with
  | zero => exact ⟨[], s, rfl, hn, rfl, rfl⟩
  | succ k ih =>
    have hpos : 0 < s.value := by
      rw [Nat.pos_iff_ne_zero]
      rintro h0
      simp [h0] at hk
    have hdigits := Nat.digits_def' hd hpos
    obtain ⟨u, hexec, hf', -, hn', hquot, hrem⟩ := divmod_latched hf hn hd
    rw [← hquot, ← hrem] at hdigits
    rw [hdigits, List.length_cons] at hk
    obtain ⟨rs, t, hrun, ht, hlen, hrest⟩ := ih hf' hn' (by omega)
    refine ⟨u.res0 :: rs, t, by rw [divideTimes_succ hexec hf', hrun]; rfl, ht, by rw [List.length_cons, hlen], ?_⟩
    rw [hdigits, List.map_cons, List.cons_append, hrest]

/-- The sum of R144 is the number with these digits. -/
theorem digitSum_eq_ofDigits (d : Nat) (rs : List Word) : digitSum d rs = Nat.ofDigits d (rs.map BitVec.toNat) := by
  induction rs with
  | nil => rfl
  | cons r rs ih => rw [digitSum, ih, List.map_cons, Nat.ofDigits_cons]

/-- Settles O49: after as many DIVMODs as the value has digits, the remainders are the digits and none are left, so the
value is 0 and LEN is too; before that a digit is left. -/
theorem repeatedDivisionYieldsDigits : Obligations.RepeatedDivisionYieldsDigits := by
  intro s d hf hn hd
  obtain ⟨rs, t, hrun, ht, hlen, hrest⟩ := divideTimes_digits hd _ hf hn le_rfl
  have hend : t.value = 0 := by
    have hcount := congrArg List.length hrest
    rw [List.length_append, List.length_map, hlen, Nat.add_eq_left, List.length_eq_zero_iff] at hcount
    exact Nat.digits_eq_nil_iff_eq_zero.mp hcount
  have hrs : rs.map BitVec.toNat = Nat.digits d.toNat s.value := by simpa [hend] using hrest
  refine ⟨_, rs, t, rfl, hrun, (normalisedIsZeroExactlyAtLengthZero t ht).mpr hend, hlen, fun r hr => ?digit, ?sum,
    fun hpos => ?last, fun j rs' t' hj hrun' h0 => ?notBefore⟩
  case digit => exact Nat.digits_lt_base hd (hrs ▸ List.mem_map_of_mem hr)
  case sum => rw [digitSum_eq_ofDigits, hrs, Nat.ofDigits_digits]
  case last =>
    have hne : rs ≠ [] := by
      rintro rfl
      exact hpos.ne' (Nat.digits_eq_nil_iff_eq_zero.mp hrs.symm)
    refine ⟨rs.getLast hne, List.getLast?_eq_some_getLast hne, fun hzero => ?_⟩
    have htop := Nat.getLast_digit_ne_zero d.toNat hpos.ne'
    simp only [← hrs, List.getLast_map, hzero] at htop
    exact htop rfl
  case notBefore =>
    obtain ⟨rs'', t'', hrun'', ht'', hlen'', hrest''⟩ := divideTimes_digits hd j hf hn hj.le
    obtain ⟨rfl, rfl⟩ := Prod.mk.inj (Option.some.inj (hrun''.symm.trans hrun'))
    have hcount := congrArg List.length hrest''
    rw [(normalisedIsZeroExactlyAtLengthZero t'' ht'').mp h0, Nat.digits_zero, List.append_nil, List.length_map,
      hlen''] at hcount
    exact hj.ne hcount

/-! ### The inverse recurrence (R165) -/

/-- A word has at most one inverse. -/
theorem inverse_unique {w : Nat} {b y z : BitVec w} (hy : y * b = 1) (hz : z * b = 1) : z = y := by
  calc z = z * (y * b) := by rw [hy, mul_one]
    _ = z * b * y := by ring
    _ = y := by rw [hz, one_mul]

/-- Settles O52: an inverse of an odd word is odd, so it has an inverse too, which can only be the word. -/
theorem invOddGivesTheUniqueInverse : Obligations.InvOddGivesTheUniqueInverse := by
  intro w hwidth b hb
  have hw : 0 < w := by omega
  obtain ⟨y, hy, hmul⟩ := invOdd_spec hw b hb
  obtain ⟨z, hz, hmul'⟩ := invOdd_spec hw y (odd_of_mul hw hmul)
  have hzb : b = z := inverse_unique hmul' (mul_comm b y ▸ hmul)
  exact ⟨y, hy, hmul, fun x hx => inverse_unique hmul hx, hzb ▸ hz⟩

/-! ### No storage (R232) -/

/-- Settles O57: every bound on an index or a position is 0, and DIVMOD finds the value 0. -/
theorem withoutStorageLimbCommandsTrap : Obligations.WithoutStorageLimbCommandsTrap := by
  intro s p hp hcap hlen
  have hcap0 : s.cap.toNat = 0 := by rw [hcap]; rfl
  have hlen0 : s.len.toNat = 0 := by rw [hlen]; rfl
  refine ⟨?_, fun hbit => ?_, ?_, ?_, ?_, ?_, ?_, ?_, fun hd => ?_⟩
  · exact (setbitSetsOneBit s p hp).1 (by omega)
  · exact (forcebitAssignsOneBit s p hp).2.1 hbit (by omega)
  · exact (rdlimbReturnsLimb s p hp).1 (by omega)
  · exact (wrlimbStoresLimb s p hp).1 (by omega)
  · exact (unsetbitClearsOneBit s p hp).1 (by omega)
  · exact (isbitsetReadsOneBit s p hp).1 (by omega)
  · obtain ⟨t, hexec, hdone, hcap', -⟩ := shrinkTrimsCapacity s p hp
    exact ⟨t, hexec, hdone, hcap'.trans hlen⟩
  · obtain ⟨t, hexec, hdone, hle, -⟩ := cleanNormalisesLength s p hp
    exact ⟨t, hexec, hdone, BitVec.eq_of_toNat_eq (Nat.le_zero.mp (hlen0 ▸ hle))⟩
  · obtain ⟨-, hone, htwo⟩ := divmodDividesInPlace s p hp
    by_cases h1 : p.a0 = 1
    · obtain ⟨t, hexec, hdone, hres, -, hlen', -⟩ := hone h1
      exact ⟨t, hexec, hdone, hlen'.trans hlen, hres⟩
    · obtain ⟨t, hexec, hres, -, hlen', -, -, hend⟩ := htwo (two_le_iff.mpr ⟨hd, h1⟩)
      have hvalue : s.value = 0 := by rw [State.value, hlen0, Memory.num_zero]
      rw [hlen0, if_neg (by omega)] at hlen'
      rw [hlen', if_neg (by omega)] at hend
      rw [hvalue, Nat.zero_mod] at hres
      exact ⟨t, hexec, hend, BitVec.eq_of_toNat_eq hlen', BitVec.eq_of_toNat_eq hres⟩

end Sys2Proof.Machine
end
